-- ==== Sys2Proof/Word.lean ====
section
/-! DEFINITION. The one word of the machine: a byte, the width of a general register, a memory cell, an
opcode and an operand (00_scope.md R6, R7; 10_state.md R21; 20_memory.md R44). -/

namespace Sys2Proof

/-- A byte, bits 7..0, an unsigned number 0..255 (00_scope.md R6, R7). It is also the width of a general
register, XLEN = 8 (10_state.md R21; DESIGN CHOICE of the spec, D5, log 22). -/
abbrev Byte := BitVec 8

end Sys2Proof
end

