-- ==== Sys2Proof/Config.lean ====
section
/-! DEFINITION. The parameters of the configuration (00_scope.md R4), their defaults, and the one free value:
what a memory cell holds before anything has written it. -/

namespace Sys2Proof

/-- `STACK_CHECK`: what PUSH, POP, CALL and RET do at the stack bounds (00_scope.md R4, 43_stack.md R130). -/
inductive StackCheck where
  | fault
  | wrap
  deriving DecidableEq, Repr

/-- `RET_JMP`: whether RET and JMP stand in the dispatch table (00_scope.md R4, 44_control_transfer.md R152).
`omitted` is the spec's `Omit`, `implemented` its `Implement`. -/
inductive RetJmp where
  | omitted
  | implemented
  deriving DecidableEq, Repr

/-- The mnemonics of the instruction set, in the source's order (30_encoding.md R67). -/
inductive Mnemonic where
  | hlt | ldi | mul | prn | push | pop | call | ret | jmp
  deriving DecidableEq, Repr

/-- `OPC`: the opcode byte of each mnemonic (00_scope.md R4). The bytes of `ret` and `jmp` are part of the map
only when `RET_JMP = Implement` (00_scope.md R5); under `Omit` nothing reads them. -/
structure Opc where
  hlt : Byte
  ldi : Byte
  mul : Byte
  prn : Byte
  push : Byte
  pop : Byte
  call : Byte
  ret : Byte
  jmp : Byte
  deriving DecidableEq, Repr

/-- `OPC_LS8`, the illustrative opcode assignment of 30_encoding.md R66. PRESUMED: the spec itself takes it from
general knowledge, not from the source (log 2). -/
def Opc.ls8 : Opc where
  hlt := 0x01
  ldi := 0x82
  mul := 0xA2
  prn := 0x47
  push := 0x45
  pop := 0x46
  call := 0x50
  ret := 0x11
  jmp := 0x54

/-- The parameters a model of the core takes as arguments (00_scope.md R4). NREG is fixed at 8 and XLEN at 8.
DESIGN CHOICE: they stand in the state, where no step writes them (log 1). -/
structure Config where
  /-- `MEM_SIZE`, the number of byte cells of the external memory. -/
  memSize : Nat
  /-- `SP_INDEX`, which general register is the stack pointer. -/
  spIndex : Fin 8
  /-- `SP_INIT`, the reset value of the stack pointer. -/
  spInit : Byte
  /-- `OPC`, the opcode map. -/
  opc : Opc
  /-- `STACK_CHECK`, the policy at the stack bounds. -/
  stackCheck : StackCheck
  /-- `RET_JMP`, whether RET and JMP are decoded. -/
  retJmp : RetJmp
  deriving DecidableEq, Repr

/-- The default of every parameter (00_scope.md R4; logs 2 to 7). -/
def Config.default : Config where
  memSize := 256
  spIndex := 7
  spInit := 0xF8
  opc := Opc.ls8
  stackCheck := .fault
  retJmp := .omitted

/-- The launch memory's byte at an address that nothing has written or loaded: a FREE VALUE, one byte per address
(93_implementation_defined.md Part 1 "any value"; 70_reset_and_hazards.md R203; 92_eei_decisions.md D19).
DESIGN CHOICE, safe (log 9): it has no body, so no proof can rest on what it is. -/
opaque Config.launchByte : Nat → Byte

end Sys2Proof
end

