-- ==== Sys2Proof/Syntax.lean ====
section
/-! DEFINITION. The instruction set, one constructor per row of spec/opcode_table.json (30_encoding.md R67). -/

namespace Sys2Proof

/-- A decoded instruction with its operand bytes, in the order they stand in memory. A register-index operand is
the whole byte, 0..255 (30_encoding.md R62): an index above 7 is a legal encoding whose execution faults (R69). -/
inductive Instr where
  /-- HLT: halt (42_register_ops.md R111). -/
  | hlt
  /-- LDI `r`, `imm`: load immediate (42_register_ops.md R112). -/
  | ldi (r imm : Byte)
  /-- MUL `rA`, `rB`: multiply (42_register_ops.md R114). -/
  | mul (rA rB : Byte)
  /-- PRN `r`: print (42_register_ops.md R116). -/
  | prn (r : Byte)
  /-- PUSH `r` (43_stack.md R131). -/
  | push (r : Byte)
  /-- POP `r` (43_stack.md R133). -/
  | pop (r : Byte)
  /-- CALL `r` (44_control_transfer.md R150). -/
  | call (r : Byte)
  /-- RET, only under `RET_JMP = Implement` (44_control_transfer.md R153). -/
  | ret
  /-- JMP `r`, only under `RET_JMP = Implement` (44_control_transfer.md R154). -/
  | jmp (r : Byte)
  deriving DecidableEq, Repr

end Sys2Proof
end

