-- ==== Sys2Proof/WellFormed.lean ====
section
/-! DEFINITION. Which instructions name only registers the machine has: "register indices always in [0,7]"
(30_encoding.md R62). The check on a configuration is `Config.wf` in Decode.lean. -/

namespace Sys2Proof

/-- A register-index operand names one of R0 to R7 (10_state.md R20). -/
def namesRegister (r : Byte) : Bool := r.toNat < 8

/-- Every register-index operand of the instruction names a register; an immediate may be any byte
(30_encoding.md R62, R63). The machine decodes the other instructions too, and they fault when they execute
(30_encoding.md R69, 60_exceptions.md R176). -/
def Instr.wellFormed : Instr → Bool
  | .hlt => true
  | .ldi r _ => namesRegister r
  | .mul rA rB => namesRegister rA && namesRegister rB
  | .prn r => namesRegister r
  | .push r => namesRegister r
  | .pop r => namesRegister r
  | .call r => namesRegister r
  | .ret => true
  | .jmp r => namesRegister r

end Sys2Proof
end

