-- ==== Sys2Proof/Decode.lean ====
section
/-! DEFINITION. The dispatch table, the decoder and the encoder (30_encoding.md), the check on a configuration
(00_scope.md R5), and the reader of opcode-table words. -/

namespace Sys2Proof

/-- Which operand byte of an instruction: byte 1 or byte 2 (42_register_ops.md R110). -/
inductive Position where
  | first
  | second
  deriving DecidableEq, Repr

/-- The operand's distance from the opcode byte, `k` of `Operand(k)` (42_register_ops.md R110). -/
def Position.offset : Position → Nat
  | .first => 1
  | .second => 2

/-- Why bytes are no instruction. Each is turned into a fault of the machine by `fetchDecode`. -/
inductive DecodeError where
  /-- There is no opcode byte: the fetch is out of bounds (40_fetch_decode_execute.md R81). -/
  | noOpcode
  /-- No dispatch entry equals the opcode byte (30_encoding.md R68). -/
  | invalidOpcode (opcode : Byte)
  /-- The bytes end before this operand (60_exceptions.md R174, access Operand). -/
  | missingOperand (position : Position)
  deriving DecidableEq, Repr

/-! ### The dispatch table -/

/-- `OPC(m)` (00_scope.md R4). -/
def opcodeOf (opc : Opc) : Mnemonic → Byte
  | .hlt => opc.hlt
  | .ldi => opc.ldi
  | .mul => opc.mul
  | .prn => opc.prn
  | .push => opc.push
  | .pop => opc.pop
  | .call => opc.call
  | .ret => opc.ret
  | .jmp => opc.jmp

/-- The mnemonics the dispatch table holds: RET and JMP only under `Implement` (30_encoding.md R65,
44_control_transfer.md R152). -/
def presentMnemonics : RetJmp → List Mnemonic
  | .omitted => [.hlt, .ldi, .mul, .prn, .push, .pop, .call]
  | .implemented => [.hlt, .ldi, .mul, .prn, .push, .pop, .call, .ret, .jmp]

/-- The dispatch table: "fixed mapping from opcode to the handler that implements it" (00_scope.md R11,
30_encoding.md R65, R70). -/
def dispatchTable (cfg : Config) : List (Byte × Mnemonic) :=
  (presentMnemonics cfg.retJmp).map fun m => (opcodeOf cfg.opc m, m)

/-- The first entry whose opcode is the byte. -/
def lookupIn : List (Byte × Mnemonic) → Byte → Option Mnemonic
  | [], _ => none
  | (b, m) :: rows, op => if b = op then some m else lookupIn rows op

/-- Lookup "by exact opcode match; no partial/prefix matching" (30_encoding.md R65, 40_fetch_decode_execute.md R82). -/
def lookup (cfg : Config) (op : Byte) : Option Mnemonic :=
  lookupIn (dispatchTable cfg) op

/-- No byte stands twice in the list. -/
def distinct : List Byte → Bool
  | [] => true
  | b :: bs => !bs.contains b && distinct bs

/-- The constraints on the parameters that the types do not state: `MEM_SIZE >= 1`, and `OPC` injective on the
mnemonics it maps (00_scope.md R5). -/
def Config.wf (cfg : Config) : Bool :=
  decide (1 ≤ cfg.memSize) && distinct ((dispatchTable cfg).map Prod.fst)

/-! ### Decoding -/

/-- An instruction with one operand byte (30_encoding.md R61, format FR). -/
def oneOperand (mk : Byte → Instr) : List Byte → Except DecodeError (Instr × List Byte)
  | r :: rest => .ok (mk r, rest)
  | [] => .error (.missingOperand .first)

/-- An instruction with two operand bytes (30_encoding.md R61, formats FRI and FRR). -/
def twoOperands (mk : Byte → Byte → Instr) : List Byte → Except DecodeError (Instr × List Byte)
  | a :: b :: rest => .ok (mk a b, rest)
  | [_] => .error (.missingOperand .second)
  | [] => .error (.missingOperand .first)

/-- The instruction of a mnemonic, with its operands taken from the bytes after the opcode (30_encoding.md R61). -/
def decodeOperands : Mnemonic → List Byte → Except DecodeError (Instr × List Byte)
  | .hlt, bs => .ok (.hlt, bs)
  | .ldi, bs => twoOperands .ldi bs
  | .mul, bs => twoOperands .mul bs
  | .prn, bs => oneOperand .prn bs
  | .push, bs => oneOperand .push bs
  | .pop, bs => oneOperand .pop bs
  | .call, bs => oneOperand .call bs
  | .ret, bs => .ok (.ret, bs)
  | .jmp, bs => oneOperand .jmp bs

/-- The decoder: the instruction at the head of the bytes and the bytes after it. It looks at the opcode byte
only to choose the instruction (30_encoding.md R65, R69). -/
def decode (cfg : Config) : List Byte → Except DecodeError (Instr × List Byte)
  | [] => .error .noOpcode
  | op :: bs =>
    match lookup cfg op with
    | none => .error (.invalidOpcode op)
    | some m => decodeOperands m bs

/-! ### Encoding -/

/-- The mnemonic of an instruction. -/
def Instr.mnemonic : Instr → Mnemonic
  | .hlt => .hlt
  | .ldi _ _ => .ldi
  | .mul _ _ => .mul
  | .prn _ => .prn
  | .push _ => .push
  | .pop _ => .pop
  | .call _ => .call
  | .ret => .ret
  | .jmp _ => .jmp

/-- How many operand bytes follow the opcode (10_state.md R25, 30_encoding.md R64). -/
def operandCount : Mnemonic → Nat
  | .hlt => 0
  | .ldi => 2
  | .mul => 2
  | .prn => 1
  | .push => 1
  | .pop => 1
  | .call => 1
  | .ret => 0
  | .jmp => 1

/-- The instruction's length in bytes, a function of its opcode alone (30_encoding.md R64). -/
def Instr.length (i : Instr) : Nat := 1 + operandCount i.mnemonic

/-- The dispatch table of the configuration holds the instruction (30_encoding.md R65). -/
def Instr.present (cfg : Config) (i : Instr) : Bool :=
  (presentMnemonics cfg.retJmp).contains i.mnemonic

/-- The bytes of an instruction, lowest address first (30_encoding.md R61, R72). -/
def encode (opc : Opc) : Instr → List Byte
  | .hlt => [opc.hlt]
  | .ldi r imm => [opc.ldi, r, imm]
  | .mul rA rB => [opc.mul, rA, rB]
  | .prn r => [opc.prn, r]
  | .push r => [opc.push, r]
  | .pop r => [opc.pop, r]
  | .call r => [opc.call, r]
  | .ret => [opc.ret]
  | .jmp r => [opc.jmp, r]

/-! ### Words of spec/opcode_table.json -/

/-- The longest instruction, in bytes (30_encoding.md R60). -/
def maxLength : Nat := 3

/-- The bytes of an opcode-table word, lowest address first: byte `k` is bits `8k+7..8k`, and every bit at or above
`nbits` is 0. -/
def tableBytes (nbits w : Nat) : List Byte :=
  (List.range maxLength).map fun k => BitVec.ofNat 8 ((w % 2 ^ nbits) >>> (8 * k))

/-- The configuration under which every row of the opcode table is present: the defaults with
`RET_JMP = Implement` (the table's "present" entry of RET and JMP; log 8). -/
def tableConfig : Config := { Config.default with retJmp := .implemented }

/-- The instruction this decoder reads from an opcode-table word. -/
def decodeTableWord (nbits w : Nat) : Option Instr :=
  match decode tableConfig (tableBytes nbits w) with
  | .ok (i, _) => some i
  | .error _ => none

end Sys2Proof
end

