-- ==== Sys2Proof/Machine/State.lean ====
section
/-! DEFINITION. The state of the machine (10_state.md), its faults as data (60_exceptions.md R170), the reasons a
step can stop, and reset (10_state.md R35). -/

namespace Sys2Proof.Machine

/-- Which access of a cycle reached a memory address (20_memory.md R42, 60_exceptions.md R174). -/
inductive AccessKind where
  | fetch
  | operand
  | dataRead
  | dataWrite
  deriving DecidableEq, Repr

/-- The kind of a fault together with the detail it records (60_exceptions.md R170). -/
inductive FaultInfo where
  /-- Code 1: the fetched byte has no dispatch entry. -/
  | invalidOpcode (opcode : Byte)
  /-- Code 2: a memory access at `address >= MEM_SIZE`. -/
  | outOfBounds (address : Nat) (access : AccessKind)
  /-- Code 3: under `STACK_CHECK = Fault`, PUSH or CALL finds `SP = 0`. -/
  | stackOverflow (sp : Byte)
  /-- Code 4: under `STACK_CHECK = Fault`, POP or RET finds `SP >= SP_INIT`. -/
  | stackUnderflow (sp : Byte)
  /-- Code 5: a register-index operand above 7. -/
  | invalidRegister (index : Byte) (position : Position)
  /-- Code 6: CALL with `pc + 2 > 255`. -/
  | returnAddressUnrepresentable (ret : Nat)
  deriving DecidableEq, Repr

/-- The fault record `(kind, code, addr, detail)` (10_state.md R29). The kind, with its detail, is `info`; the code
is computed from it (`FaultRecord.code`, log 16). -/
structure FaultRecord where
  /-- The address of the opcode byte of the instruction that faulted. -/
  addr : Nat
  info : FaultInfo
  deriving DecidableEq, Repr

/-- Why the engine is HALTED (10_state.md R28). -/
inductive HaltCause where
  | hlt
  | fault (record : FaultRecord)
  deriving DecidableEq, Repr

/-- The run state (10_state.md R28, 40_fetch_decode_execute.md R80). -/
inductive Status where
  | running
  | halted (cause : HaltCause)
  deriving DecidableEq, Repr

/-- The written and loaded cells of the external memory, addresses strictly rising (`Memory.wf`). An address that
is not listed holds no written byte; the core reads the launch memory's byte there (`Memory.read`, logs 9 and 10). -/
abbrev Memory := List Host.Cell

/-- The complete state of a model (10_state.md, introduction): the core's registers and run state, the output trace,
the external memory's contents, and the configuration. -/
structure State where
  /-- The parameters (00_scope.md R4). Not the spec's state: no step writes them (log 1). -/
  cfg : Config
  /-- `x[0]` to `x[7]` (10_state.md R20, R21). -/
  regs : Vector Byte 8
  /-- The program counter, an unsigned number that does not wrap (10_state.md R24, R26; log 21). -/
  pc : Nat
  /-- The instruction register, the most recently fetched opcode (10_state.md R27). -/
  ir : Byte
  /-- The run state with its halt cause (10_state.md R28, R29). -/
  status : Status
  /-- The values PRN has emitted, oldest first (10_state.md R30). -/
  output : List Byte
  /-- The external memory (20_memory.md R40). -/
  mem : Memory
  deriving DecidableEq, Repr

/-- The operation tags of the ALU: MUL, and the six reserved ones (41_alu.md R101, R102). -/
inductive AluTag where
  | mul | add | sub | div | inc | dec | cmp
  deriving DecidableEq, Repr

/-- Reasons for the host's outcome `fault`: there is none. Every fault the spec describes is a transition to HALTED
with a recorded fault (60_exceptions.md R171), hence a next state, and every memory cell holds some byte (log 17). -/
inductive Fault where
  deriving DecidableEq, Repr

/-- Reasons for the host's outcome `refused`. -/
inductive Refusal where
  /-- An instruction without a meaning; raised by no arm of `exec`. Safe. -/
  | notModelled (mnemonic : String)
  /-- The configuration breaks a constraint of 00_scope.md R5, which lets a model refuse it; raised by `step`. Safe
  (log 19). -/
  | illFormedConfiguration
  /-- A reserved ALU tag, which 41_alu.md R102 says a model must refuse; raised by `withAlu`, which no instruction
  calls with a reserved tag. Safe (log 20). -/
  | reservedAluTag (tag : AluTag)
  deriving DecidableEq, Repr

/-- What an instruction or a step answers. -/
abbrev Answer := Host.Outcome State Fault Refusal

/-- The state after the core is constructed over a memory: every register 0 but the stack pointer, which is
`SP_INIT`; `pc` 0, `ir` 0, RUNNING, empty output (10_state.md R35, 70_reset_and_hazards.md R200, R201). -/
def State.construct (cfg : Config) (mem : Memory) : State where
  cfg := cfg
  regs := (Vector.replicate 8 0).set cfg.spIndex.val cfg.spInit
  pc := 0
  ir := 0
  status := .running
  output := []
  mem := mem

/-- The machine right after reset under the default parameters, with nothing loaded into memory
(10_state.md R35; 70_reset_and_hazards.md R203; logs 1 and 9). -/
def State.reset : State := State.construct Config.default []

end Sys2Proof.Machine
end

