-- ==== Sys2Proof/Machine/Ops.lean ====
section
/-! DEFINITION. The named operations over memory and registers, and raising a fault: the primitives of
00_scope.md R8, the stack helpers of 43_stack.md R130 and the `raise` of 60_exceptions.md R171. The core has no
flags (10_state.md R31), so there are no flag computations. -/

namespace Sys2Proof.Machine

/-! ### Memory as plain data (20_memory.md R40, R41) -/

/-- The byte written or loaded at an address, if any was. -/
def Memory.lookup : Memory → Nat → Option Byte
  | [], _ => none
  | (k, v) :: m, a => if k = a then some v else Memory.lookup m a

/-- `read(address)`: the latest byte written there, or the launch memory's byte (20_memory.md R41; log 9). -/
def Memory.read (m : Memory) (a : Nat) : Byte :=
  (m.lookup a).getD (Config.launchByte a)

/-- `write(address, byte)`: changes only the cell at its address (20_memory.md R41). -/
def Memory.write : Memory → Nat → Byte → Memory
  | [], a, v => [(a, v)]
  | (k, w) :: m, a, v =>
    if a < k then (a, v) :: (k, w) :: m
    else if a = k then (a, v) :: m
    else (k, w) :: Memory.write m a v

/-- The canonical form: addresses strictly rising (log 10). -/
def Memory.wf : Memory → Bool
  | [] => true
  | c :: m => m.all (fun d => decide (c.1 < d.1)) && Memory.wf m

/-- Every listed address lies inside a memory of `size` cells (20_memory.md R40). -/
def Memory.within (size : Nat) (m : Memory) : Bool :=
  m.all fun c => decide (c.1 < size)

/-- Bytes written at rising addresses from `a` (70_reset_and_hazards.md R202). -/
def Memory.load (m : Memory) (a : Nat) : List Byte → Memory
  | [] => m
  | b :: bs => Memory.load (m.write a b) (a + 1) bs

/-! ### The parts of the state (00_scope.md R8) -/

/-- `x[i]`. -/
def State.readReg (s : State) (i : Fin 8) : Byte := s.regs[i.val]

/-- `x[i] <- v`. No register is hard-wired (10_state.md R20). -/
def State.writeReg (s : State) (i : Fin 8) (v : Byte) : State :=
  { s with regs := s.regs.set i.val v }

/-- `SP`, which is `x[SP_INDEX]` (10_state.md R22). -/
def State.sp (s : State) : Byte := s.readReg s.cfg.spIndex

/-- `SP <- v`. -/
def State.setSp (s : State) (v : Byte) : State := s.writeReg s.cfg.spIndex v

/-- `pc <- target`. -/
def State.setPc (s : State) (target : Nat) : State := { s with pc := target }

/-- `ir <- v`; only the fetch does so (10_state.md R27). -/
def State.latchIr (s : State) (v : Byte) : State := { s with ir := v }

/-- `Emit(v)`: the value joins the end of the output trace (10_state.md R30). -/
def State.emit (s : State) (v : Byte) : State := { s with output := s.output ++ [v] }

/-- The write of `MemWrite(addr, 1, v)` after its bound check (20_memory.md R42). -/
def State.writeMem (s : State) (a : Nat) (v : Byte) : State := { s with mem := s.mem.write a v }

/-- HALTED is entered with a cause (40_fetch_decode_execute.md R80). -/
def State.halt (s : State) (cause : HaltCause) : State := { s with status := .halted cause }

/-! ### Faults (60_exceptions.md R170, R171) -/

/-- The kinds of fault, without their details (60_exceptions.md R170). -/
inductive FaultKind where
  | invalidOpcode
  | outOfBounds
  | stackOverflow
  | stackUnderflow
  | invalidRegister
  | returnAddressUnrepresentable
  deriving DecidableEq, Repr

/-- The numeric code of a kind (60_exceptions.md R170; the spec's own numbers, D14, log 16). -/
def FaultKind.code : FaultKind → Nat
  | .invalidOpcode => 1
  | .outOfBounds => 2
  | .stackOverflow => 3
  | .stackUnderflow => 4
  | .invalidRegister => 5
  | .returnAddressUnrepresentable => 6

/-- The kind of a fault. -/
def FaultInfo.kind : FaultInfo → FaultKind
  | .invalidOpcode _ => .invalidOpcode
  | .outOfBounds _ _ => .outOfBounds
  | .stackOverflow _ => .stackOverflow
  | .stackUnderflow _ => .stackUnderflow
  | .invalidRegister _ _ => .invalidRegister
  | .returnAddressUnrepresentable _ => .returnAddressUnrepresentable

/-- The `kind` of a record (10_state.md R29). -/
def FaultRecord.kind (f : FaultRecord) : FaultKind := f.info.kind

/-- The `code` of a record (10_state.md R29). -/
def FaultRecord.code (f : FaultRecord) : Nat := f.kind.code

/-- The state after `raise F(info)`: HALTED with the record, whose address is that of the faulting instruction's
opcode byte, and nothing else written (60_exceptions.md R171, R172). -/
def State.raised (s : State) (info : FaultInfo) : State :=
  s.halt (.fault { addr := s.pc, info := info })

/-- `raise F(info)`: the one operation by which every instruction takes a fault (60_exceptions.md R171). There is no
return from it: only reset leaves HALTED (60_exceptions.md R180). -/
def raise (s : State) (info : FaultInfo) : Answer := .next (s.raised info)

/-! ### Checks that come before the first write (00_scope.md R9, 60_exceptions.md R178) -/

/-- The bound check of a memory access (20_memory.md R42). -/
def withinMemory (s : State) (a : Nat) (access : AccessKind) (go : Answer) : Answer :=
  if a < s.cfg.memSize then go else raise s (.outOfBounds a access)

/-- `SPDec()`: the new SP of a push, or StackOverflow (43_stack.md R130). It writes nothing. -/
def withStackRoom (s : State) (go : Byte → Answer) : Answer :=
  if s.cfg.stackCheck = .fault ∧ s.sp = 0 then raise s (.stackOverflow s.sp) else go (s.sp - 1)

/-- `SPPopCheck()` then the bound check of the pop's read: the byte at the top of the stack, or a fault
(43_stack.md R130, R133). It writes nothing. -/
def withStackTop (s : State) (go : Byte → Answer) : Answer :=
  if s.cfg.stackCheck = .fault ∧ s.cfg.spInit ≤ s.sp then raise s (.stackUnderflow s.sp)
  else withinMemory s s.sp.toNat .dataRead (go (s.mem.read s.sp.toNat))

/-- `SPInc(v)`, modulo 256 (43_stack.md R130). -/
def spInc (v : Byte) : Byte := v + 1

/-- The write half of a push: `SP <- sp1`, then a byte computed after the update of SP is written at `sp1`
(43_stack.md R131, 00_scope.md R9). -/
def State.pushed (s : State) (sp1 : Byte) (value : State → Byte) : State :=
  (s.setSp sp1).writeMem sp1.toNat (value (s.setSp sp1))

end Sys2Proof.Machine
end

