-- ==== Sys2Proof/Machine/Operands.lean ====
section
/-! DEFINITION. The operand forms: a register index and an immediate (30_encoding.md R62, R63; 42_register_ops.md
R110). The decoder has read the operand bytes, all of them before the first check (00_scope.md R9; log 32). -/

namespace Sys2Proof.Machine

/-- The register an operand byte names: the whole byte is the index, nothing is masked (30_encoding.md R62). -/
def regIndex (b : Byte) : Option (Fin 8) :=
  if h : b.toNat < 8 then some ⟨b.toNat, h⟩ else none

/-- The operand byte that names a register. -/
def regByte (i : Fin 8) : Byte := BitVec.ofNat 8 i.val

/-- `CheckReg(i, k)`: continue with the register, or raise InvalidRegister (42_register_ops.md R110, 60_exceptions.md
R176; the spec's own choice, D8, log 11). -/
def withReg (s : State) (b : Byte) (k : Position) (go : Fin 8 → Answer) : Answer :=
  match regIndex b with
  | some i => go i
  | none => raise s (.invalidRegister b k)

/-- The value of an immediate operand: the byte itself, not extended, scaled or shifted (30_encoding.md R63). -/
def immediate (b : Byte) : Byte := b

end Sys2Proof.Machine
end

