-- ==== Sys2Proof/Machine/Control.lean ====
section
/-! DEFINITION. The meanings of CALL, RET and JMP (44_control_transfer.md). RET and JMP are reached only when the
dispatch table holds them, that is under `RET_JMP = Implement` (44_control_transfer.md R152; log 7). -/

namespace Sys2Proof.Machine

/-- The check that CALL's return address fits a memory cell (44_control_transfer.md R150, 60_exceptions.md R177; the
spec's own choice, D13, log 15). -/
def withReturnByte (s : State) (ret : Nat) (go : Byte → Answer) : Answer :=
  if 255 < ret then raise s (.returnAddressUnrepresentable ret) else go (BitVec.ofNat 8 ret)

/-- CALL `r`; the target `x[r]` is read after the SP update (44_control_transfer.md R150; log 14). -/
def execCall (r : Byte) (s : State) : Answer :=
  withReg s r .first fun i =>
    withStackRoom s fun sp1 =>
      withReturnByte s (s.pc + 2) fun ret =>
        withinMemory s sp1.toNat .dataWrite <|
          .next ((s.pushed sp1 fun _ => ret).setPc ((s.setSp sp1).readReg i).toNat)

/-- RET: pop the return address into `pc` (44_control_transfer.md R153). -/
def execRet (s : State) : Answer :=
  withStackTop s fun v =>
    .next ((s.setSp (spInc s.sp)).setPc v.toNat)

/-- JMP `r`: no stack interaction (44_control_transfer.md R154). -/
def execJmp (r : Byte) (s : State) : Answer :=
  withReg s r .first fun i =>
    .next (s.setPc (s.readReg i).toNat)

end Sys2Proof.Machine
end

