-- ==== Sys2Proof/Machine/Alu.lean ====
section
/-! DEFINITION. The arithmetic logic unit (41_alu.md). It writes no flag: the core has none (10_state.md R31). -/

namespace Sys2Proof.Machine

/-- `apply(op, a, b)`: the exact product reduced modulo 256 for MUL, and no value for a reserved tag (41_alu.md R100
to R102; 90_conflicts.md C1, C2). -/
def aluApply (tag : AluTag) (a b : Byte) : Option Byte :=
  match tag with
  | .mul => some (BitVec.ofNat 8 ((a.toNat * b.toNat) % 256))
  | .add => none
  | .sub => none
  | .div => none
  | .inc => none
  | .dec => none
  | .cmp => none

/-- Continue with the ALU's result; a reserved tag is refused (41_alu.md R102; log 20). -/
def withAlu (tag : AluTag) (a b : Byte) (go : Byte → Answer) : Answer :=
  match aluApply tag a b with
  | some v => go v
  | none => .refused (.reservedAluTag tag)

end Sys2Proof.Machine
end

