-- ==== Sys2Proof/Machine/RegisterOps.lean ====
section
/-! DEFINITION. The meanings of HLT, LDI, MUL and PRN (42_register_ops.md). During a meaning `pc` is the address of the
opcode byte, and the run state is RUNNING (log 31). -/

namespace Sys2Proof.Machine

/-- HLT: HALTED with cause Hlt; `pc` stays at the HLT (42_register_ops.md R111, 90_conflicts.md C3). -/
def execHlt (s : State) : Answer := .next (s.halt .hlt)

/-- LDI `r`, `imm` (42_register_ops.md R112). -/
def execLdi (r imm : Byte) (s : State) : Answer :=
  withReg s r .first fun i =>
    .next ((s.writeReg i (immediate imm)).setPc (s.pc + 3))

/-- MUL `rA`, `rB`; both operands are the old values (42_register_ops.md R114). -/
def execMul (rA rB : Byte) (s : State) : Answer :=
  withReg s rA .first fun a =>
    withReg s rB .second fun b =>
      withAlu .mul (s.readReg a) (s.readReg b) fun v =>
        .next ((s.writeReg a v).setPc (s.pc + 3))

/-- PRN `r` (42_register_ops.md R116). -/
def execPrn (r : Byte) (s : State) : Answer :=
  withReg s r .first fun i =>
    .next ((s.emit (s.readReg i)).setPc (s.pc + 2))

end Sys2Proof.Machine
end

