-- ==== Sys2Proof/Machine/Stack.lean ====
section
/-! DEFINITION. The meanings of PUSH and POP (43_stack.md). -/

namespace Sys2Proof.Machine

/-- PUSH `r`; `x[r]` is read after the SP update, so PUSH of SP writes the decremented SP (43_stack.md R131; log 14). -/
def execPush (r : Byte) (s : State) : Answer :=
  withReg s r .first fun i =>
    withStackRoom s fun sp1 =>
      withinMemory s sp1.toNat .dataWrite <|
        .next ((s.pushed sp1 (·.readReg i)).setPc (s.pc + 2))

/-- POP `r`; SP is read after the write to `x[r]`, so POP of SP ends with the popped byte plus 1 (43_stack.md R133;
log 14). -/
def execPop (r : Byte) (s : State) : Answer :=
  withReg s r .first fun i =>
    withStackTop s fun v =>
      .next (((s.writeReg i v).setSp (spInc (s.writeReg i v).sp)).setPc (s.pc + 2))

end Sys2Proof.Machine
end

