-- ==== Sys2Proof/Machine/Fetch.lean ====
section
/-! DEFINITION. The fetch and decode part of a cycle (40_fetch_decode_execute.md R81 to R84), and the placing of an
opcode-table word where the next fetch reads it. -/

namespace Sys2Proof.Machine

/-- At most `n` bytes of memory from address `a` up, ending at the end of memory. -/
def bytesFrom (m : Memory) (size a : Nat) : Nat → List Byte
  | 0 => []
  | n + 1 => if a < size then m.read a :: bytesFrom m size (a + 1) n else []

/-- The bytes the decoder may consume: those at `pc`, `pc + 1`, `pc + 2` that lie inside memory
(30_encoding.md R60). Which of them the cycle requests is `State.requests`. -/
def State.window (s : State) : List Byte := bytesFrom s.mem s.cfg.memSize s.pc maxLength

/-- What fetch and decode hand on. -/
inductive Fetched where
  /-- An instruction to execute, in the state with the opcode in `ir`. -/
  | execute (i : Instr) (s : State)
  /-- The state after the cycle's fault; nothing is executed. -/
  | stop (s : State)
  deriving DecidableEq, Repr

/-- Fetch and decode. The opcode goes to `ir` unless the fetch is out of bounds (40_fetch_decode_execute.md R81; D24,
log 23); an unmapped opcode (R83) or an operand beyond memory (42_register_ops.md R110) is a fault, in the order of
60_exceptions.md R178. -/
def fetchDecode (s : State) : Fetched :=
  match decode s.cfg s.window with
  | .error .noOpcode => .stop (s.raised (.outOfBounds s.pc .fetch))
  | .error (.invalidOpcode op) => .stop ((s.latchIr (s.mem.read s.pc)).raised (.invalidOpcode op))
  | .error (.missingOperand k) =>
    .stop ((s.latchIr (s.mem.read s.pc)).raised (.outOfBounds (s.pc + k.offset) .operand))
  | .ok (i, _) => .execute i (s.latchIr (s.mem.read s.pc))

/-- The bytes put at rising addresses from `a`, only inside a memory of `size` cells. -/
def Memory.place (m : Memory) (size a : Nat) : List Byte → Memory
  | [] => m
  | b :: bs => Memory.place (if a < size then m.write a b else m) size (a + 1) bs

/-- The opcode byte belongs to RET or JMP and the configuration does not decode it. -/
def needsRetJmp (cfg : Config) (op : Byte) : Bool :=
  (lookup cfg op).isNone && (lookup { cfg with retJmp := .implemented } op).isSome

/-- The state in which the very next step runs an opcode-table word: its bytes at `pc`, RUNNING, and, for a word of RET
or JMP only, `RET_JMP = Implement`, without which the table's row is not present (logs 8 and 28). -/
def State.placeWord (s : State) (nbits w : Nat) : State :=
  { s with
    mem := s.mem.place s.cfg.memSize s.pc (tableBytes nbits w)
    status := .running
    cfg := if needsRetJmp s.cfg (BitVec.ofNat 8 (w % 2 ^ nbits)) then
        { s.cfg with retJmp := .implemented } else s.cfg }

end Sys2Proof.Machine
end

