-- ==== Sys2Proof/Machine/Step.lean ====
section
/-! DEFINITION. One step: one whole cycle in RUNNING, nothing in HALTED (40_fetch_decode_execute.md R85 to R87). -/

namespace Sys2Proof.Machine

/-- One `step` request (40_fetch_decode_execute.md R91). A cycle fetches, decodes and executes one instruction or
raises one fault (R86); in HALTED the request has no effect (R87, R91, 95_test_vectors.md F4; log 18). A
configuration that breaks 00_scope.md R5 is refused (log 19). -/
def step (s : State) : Host.Outcome State Fault Refusal :=
  if s.cfg.wf then
    match s.status with
    | .halted _ => .next s
    | .running =>
      match fetchDecode s with
      | .execute i s1 => exec i s1
      | .stop s1 => .next s1
  else .refused .illFormedConfiguration

/-- The state whose next step fetches and runs the opcode-table word. -/
def State.withFetchWord (s : State) (nbits w : Nat) : State := s.placeWord nbits w

end Sys2Proof.Machine
end

