-- ==== Sys2Proof/Machine/HostPort.lean ====
section
/-! DEFINITION. The host's interactions with the core and the ports it reads (40_fetch_decode_execute.md R91,
70_reset_and_hazards.md R200 to R206). The host makes no other move (R204; log 29). -/

namespace Sys2Proof.Machine

/-- The `reset` input: constructs the core state whatever it held before, and does not touch memory
(70_reset_and_hazards.md R200; D16, log 24). -/
def State.hostReset (s : State) : State := State.construct s.cfg s.mem

/-- The `status` output: whether the engine is RUNNING (40_fetch_decode_execute.md R91). -/
def State.isRunning (s : State) : Bool := s.status = .running

/-- A load may come now: "before reset / first `step`" (70_reset_and_hazards.md R204). That is, the engine is HALTED, so
that only a reset goes on from here, or its core state still is the one reset leaves. DESIGN CHOICE (log 34): the state
keeps no record of past steps, so the reset values stand for "no step yet". -/
def State.acceptsLoad (s : State) : Bool := !s.isRunning || decide (s = s.hostReset)

/-- The load of a program image at address 0 (70_reset_and_hazards.md R202). There is none during a run, where R204 gives
the host no such move (logs 29 and 34), and none of an image longer than the memory, which breaks the premise of R203
(log 29). -/
def State.hostLoad (s : State) (image : List Byte) : Option State :=
  if s.acceptsLoad = true ∧ image.length ≤ s.cfg.memSize then some { s with mem := s.mem.load 0 image } else none

/-- The launch of a run: the image loaded, then the core constructed (70_reset_and_hazards.md R202, R203). -/
def launch (cfg : Config) (mem : Memory) (image : List Byte) : Option State :=
  ((State.construct cfg mem).hostLoad image).map State.hostReset

/-- The halt cause, none while RUNNING (10_state.md R28, 70_reset_and_hazards.md R206). -/
def State.haltCause (s : State) : Option HaltCause :=
  match s.status with
  | .running => none
  | .halted c => some c

/-- The `fault` output: the fault record or none (40_fetch_decode_execute.md R91). -/
def State.faultPort (s : State) : Option FaultRecord :=
  match s.status with
  | .halted (.fault f) => some f
  | .halted .hlt => none
  | .running => none

/-- The `out_emit` output between two states of a run: the values the trace gained (40_fetch_decode_execute.md R91). -/
def emitted (before after : State) : List Byte := after.output.drop before.output.length

/-- The decimal digits of a number. -/
def decimal (n : Nat) : List Char := Nat.toDigits 10 n

/-- The output trace as the host renders it: "a bare decimal number, one per invocation, in execution order", the
unsigned value of each byte (10_state.md R30, 60_exceptions.md R185; D17, log 25). -/
def State.renderedOutput (s : State) : List (List Char) := s.output.map fun v => decimal v.toNat

end Sys2Proof.Machine
end

