-- ==== Sys2Proof/Machine/Assembler.lean ====
section
/-! DEFINITION. The assembler's text (30_encoding.md R71) and the bytes it writes (R72). A text is a list of
characters. What R71 leaves open about the spelling (spaces, leading zeros, empty instructions) is the model's choice,
log 27. -/

namespace Sys2Proof.Machine

/-- The mnemonic as the source writes it (30_encoding.md R67). -/
def mnemonicText : Mnemonic → List Char
  | .hlt => ['H', 'L', 'T']
  | .ldi => ['L', 'D', 'I']
  | .mul => ['M', 'U', 'L']
  | .prn => ['P', 'R', 'N']
  | .push => ['P', 'U', 'S', 'H']
  | .pop => ['P', 'O', 'P']
  | .call => ['C', 'A', 'L', 'L']
  | .ret => ['R', 'E', 'T']
  | .jmp => ['J', 'M', 'P']

/-- The mnemonic a word spells. -/
def mnemonicOf (word : List Char) : Option Mnemonic :=
  [Mnemonic.hlt, .ldi, .mul, .prn, .push, .pop, .call, .ret, .jmp].find? fun m => mnemonicText m = word

/-- The value of a decimal digit. -/
def digitValue (c : Char) : Option Nat :=
  if 48 ≤ c.toNat ∧ c.toNat ≤ 57 then some (c.toNat - 48) else none

/-- Decimal digits read after a number already read. -/
def parseDigits (acc : Nat) : List Char → Option Nat
  | [] => some acc
  | c :: cs => match digitValue c with
    | some d => parseDigits (10 * acc + d) cs
    | none => none

/-- A decimal number: at least one digit, and nothing but digits. DESIGN CHOICE (log 27): R71 says only "decimal numbers"
and does not say whether leading zeros are allowed; any number of them is read and changes nothing, so `R007` is `R7` and
`008` is 8. -/
def parseNumber : List Char → Option Nat
  | [] => none
  | c :: cs => parseDigits 0 (c :: cs)

/-- A register index in decimal, 0 to 7 (30_encoding.md R71), with leading zeros as `parseNumber` reads them. -/
def parseIndex (cs : List Char) : Option Byte :=
  match parseNumber cs with
  | some n => if n < 8 then some (BitVec.ofNat 8 n) else none
  | none => none

/-- A register operand: `Rn`, a bare `n`, or `SP` for the stack pointer's register (30_encoding.md R71). -/
def parseRegister (cfg : Config) : List Char → Option Byte
  | ['S', 'P'] => some (regByte cfg.spIndex)
  | 'R' :: ds => parseIndex ds
  | ds => parseIndex ds

/-- An immediate: a decimal number 0 to 255 (30_encoding.md R63, R71), with leading zeros as `parseNumber` reads them. -/
def parseImmediate (cs : List Char) : Option Byte :=
  match parseNumber cs with
  | some n => if n < 256 then some (BitVec.ofNat 8 n) else none
  | none => none

/-- The pieces of a text between separators. -/
def splitAt (sep : Char) : List Char → List (List Char)
  | [] => [[]]
  | c :: cs =>
    if c = sep then [] :: splitAt sep cs
    else match splitAt sep cs with
      | piece :: more => (c :: piece) :: more
      | [] => [[c]]

/-- A text without the spaces at its two ends. DESIGN CHOICE (log 27): the source's listing has a space after each `;`. -/
def trimSpaces (cs : List Char) : List Char :=
  ((cs.dropWhile (· = ' ')).reverse.dropWhile (· = ' ')).reverse

/-- The operands of a line: what follows the mnemonic's space, separated by commas. -/
def operandTexts (line : List Char) : List (List Char) :=
  match line.dropWhile (· ≠ ' ') with
  | [] => []
  | _ :: ops => splitAt ',' ops

/-- An instruction with one register operand. -/
def parseOne (cfg : Config) (mk : Byte → Instr) : List (List Char) → Option Instr
  | [a] => (parseRegister cfg a).map mk
  | _ => none

/-- One instruction: "the mnemonic, a space, and the operands separated by commas" (30_encoding.md R71). -/
def parseInstr (cfg : Config) (line : List Char) : Option Instr :=
  match mnemonicOf (line.takeWhile (· ≠ ' ')), operandTexts line with
  | some .hlt, [] => some .hlt
  | some .ldi, [a, b] =>
    match parseRegister cfg a, parseImmediate b with
    | some r, some imm => some (.ldi r imm)
    | _, _ => none
  | some .mul, [a, b] =>
    match parseRegister cfg a, parseRegister cfg b with
    | some rA, some rB => some (.mul rA rB)
    | _, _ => none
  | some .prn, ops => parseOne cfg .prn ops
  | some .push, ops => parseOne cfg .push ops
  | some .pop, ops => parseOne cfg .pop ops
  | some .call, ops => parseOne cfg .call ops
  | some .ret, [] => some .ret
  | some .jmp, ops => parseOne cfg .jmp ops
  | _, _ => none

/-- The bytes of one instruction's text: an opcode exists only for a mnemonic the dispatch table holds
(30_encoding.md R72, 00_scope.md R5). -/
def assembleLine (cfg : Config) (line : List Char) : Option (List Byte) :=
  match parseInstr cfg (trimSpaces line) with
  | some i => if i.present cfg then some (encode cfg.opc i) else none
  | none => none

/-- The bytes of several instructions, one after the other. -/
def assembleLines (cfg : Config) : List (List Char) → Option (List Byte)
  | [] => some []
  | l :: ls =>
    match assembleLine cfg l, assembleLines cfg ls with
    | some bs, some rest => some (bs ++ rest)
    | _, _ => none

/-- The image of a listing whose instructions are separated by `;` (30_encoding.md R71, R72). DESIGN CHOICE (log 27): an
empty piece, as after a last `;`, is no instruction and the listing is refused. -/
def assemble (cfg : Config) (listing : List Char) : Option (List Byte) :=
  assembleLines cfg (splitAt ';' listing)

/-- A register operand as the source writes it: `R` and the index. -/
def registerText (r : Byte) : List Char := 'R' :: decimal r.toNat

/-- The text of an instruction (30_encoding.md R71). -/
def instrText (i : Instr) : List Char :=
  mnemonicText i.mnemonic ++
    match i with
    | .hlt => []
    | .ldi r imm => ' ' :: registerText r ++ ',' :: decimal imm.toNat
    | .mul rA rB => ' ' :: registerText rA ++ ',' :: registerText rB
    | .prn r => ' ' :: registerText r
    | .push r => ' ' :: registerText r
    | .pop r => ' ' :: registerText r
    | .call r => ' ' :: registerText r
    | .ret => []
    | .jmp r => ' ' :: registerText r

end Sys2Proof.Machine
end

