-- ==== Sys2Proof/Machine/Bus.lean ====
section
/-! DEFINITION. The memory requests of a cycle, in the order the core issues them: the `mem_read` and `mem_write`
outputs (40_fetch_decode_execute.md R91, 20_memory.md R43, R50; D18, log 26). They are no state: a request is answered
within its cycle. -/

namespace Sys2Proof.Machine

/-- One request to the external memory (20_memory.md R41). -/
inductive Request where
  | read (address : Nat) (access : AccessKind)
  | write (address : Nat) (value : Byte)
  deriving DecidableEq, Repr

/-- The address a request is for. -/
def Request.address : Request → Nat
  | .read a _ => a
  | .write a _ => a

/-- The operand reads that lie inside memory, in address order: `MemRead(pc + 1, 1)` and so on (20_memory.md R43). -/
def operandReads (s : State) (n : Nat) : List Request :=
  (((List.range n).map fun k => s.pc + 1 + k).takeWhile fun a => decide (a < s.cfg.memSize)).map (.read · .operand)

/-- The fetch and the operand reads (20_memory.md R43). -/
def fetchRequests (s : State) : List Request :=
  if s.pc < s.cfg.memSize then
    .read s.pc .fetch ::
      match lookup s.cfg (s.mem.read s.pc) with
      | none => []
      | some m => operandReads s (operandCount m)
  else []

/-- An execution ended without a fault. -/
def completed : Answer → Bool
  | .next t => match t.status with
    | .halted (.fault _) => false
    | .halted .hlt => true
    | .running => true
  | .fault _ => false
  | .refused _ => false

/-- The data access an instruction makes when it completes (20_memory.md R43): PUSH and CALL write below the stack
pointer, POP and RET read at it. -/
def dataAccess (i : Instr) (s : State) : List Request :=
  match i with
  | .hlt => []
  | .ldi _ _ => []
  | .mul _ _ => []
  | .prn _ => []
  | .push r =>
    match regIndex r with
    | some k => [.write (s.sp - 1).toNat ((s.setSp (s.sp - 1)).readReg k)]
    | none => []
  | .pop _ => [.read s.sp.toNat .dataRead]
  | .call _ => [.write (s.sp - 1).toNat (BitVec.ofNat 8 (s.pc + 2))]
  | .ret => [.read s.sp.toNat .dataRead]
  | .jmp _ => []

/-- The requests of the cycle that a `step` runs in this state. A cycle that faults issues no data request, because
every check comes before it (00_scope.md R9), and HALTED issues none (40_fetch_decode_execute.md R87). -/
def State.requests (s : State) : List Request :=
  match s.status with
  | .halted _ => []
  | .running =>
    fetchRequests s ++
      match fetchDecode s with
      | .execute i s1 => if completed (exec i s1) then dataAccess i s1 else []
      | .stop _ => []

end Sys2Proof.Machine
end

