-- ==== Sys2Proof/Safety.lean ====
section
/-! DEFINITION. The terms the claims use: how a run ends (40_fetch_decode_execute.md R92), the faults a cycle may raise
in the order of 60_exceptions.md R178, and the invariant of the machine. -/

namespace Sys2Proof.Machine

/-! ### The end of a run (40_fetch_decode_execute.md R92) -/

/-- The run ended well: HLT halted the engine. -/
def State.endedWell (s : State) : Prop := s.status = .halted .hlt

/-- The run ended in fault. -/
def State.endedInFault (s : State) : Prop := ∃ f, s.status = .halted (.fault f)

/-- The observation of a run: its output trace with its halt cause, none while it has not ended. -/
def State.observation (s : State) : List Byte × Option HaltCause := (s.output, s.haltCause)

/-! ### The faults of a cycle in their order (60_exceptions.md R178) -/

/-- The register-index operand bytes of an instruction, in operand order (10_state.md R23). -/
def registerOperands : Instr → List (Byte × Position)
  | .hlt => []
  | .ldi r _ => [(r, .first)]
  | .mul rA rB => [(rA, .first), (rB, .second)]
  | .prn r => [(r, .first)]
  | .push r => [(r, .first)]
  | .pop r => [(r, .first)]
  | .call r => [(r, .first)]
  | .ret => []
  | .jmp r => [(r, .first)]

/-- The instruction pushes a byte: PUSH and CALL. -/
def pushesByte : Instr → Bool
  | .push _ => true
  | .call _ => true
  | _ => false

/-- The instruction pops a byte: POP and RET. -/
def popsByte : Instr → Bool
  | .pop _ => true
  | .ret => true
  | _ => false

/-- The instruction is a CALL. -/
def isCall : Instr → Bool
  | .call _ => true
  | _ => false

/-- The faults an instruction may raise once its operands are read, each with its condition, in the order of
60_exceptions.md R178 items 4 to 7. -/
def faultConditions (i : Instr) (s : State) : List (Bool × FaultInfo) :=
  ((registerOperands i).map fun o => (decide (7 < o.1.toNat), .invalidRegister o.1 o.2)) ++
  [ (pushesByte i && decide (s.cfg.stackCheck = .fault) && decide (s.sp = 0), .stackOverflow s.sp),
    (popsByte i && decide (s.cfg.stackCheck = .fault) && decide (s.cfg.spInit.toNat ≤ s.sp.toNat), .stackUnderflow s.sp),
    (isCall i && decide (255 < s.pc + 2), .returnAddressUnrepresentable (s.pc + 2)),
    (pushesByte i && decide (s.cfg.memSize ≤ (s.sp.toNat + 255) % 256), .outOfBounds ((s.sp.toNat + 255) % 256) .dataWrite),
    (popsByte i && decide (s.cfg.memSize ≤ s.sp.toNat), .outOfBounds s.sp.toNat .dataRead) ]

/-- The first fault whose condition holds. -/
def firstFault : List (Bool × FaultInfo) → Option FaultInfo
  | [] => none
  | (c, f) :: more => if c then some f else firstFault more

/-- The one fault of a cycle, if it raises one, in the order of 60_exceptions.md R178 items 1 to 7. -/
def State.cycleFault (s : State) : Option FaultInfo :=
  if s.cfg.memSize ≤ s.pc then some (.outOfBounds s.pc .fetch)
  else match lookup s.cfg (s.mem.read s.pc) with
    | none => some (.invalidOpcode (s.mem.read s.pc))
    | some m =>
      if 1 ≤ operandCount m ∧ s.cfg.memSize ≤ s.pc + 1 then some (.outOfBounds (s.pc + 1) .operand)
      else if 2 ≤ operandCount m ∧ s.cfg.memSize ≤ s.pc + 2 then some (.outOfBounds (s.pc + 2) .operand)
      else match decodeOperands m [s.mem.read (s.pc + 1), s.mem.read (s.pc + 2)] with
        | .ok (i, _) => firstFault (faultConditions i s)
        | .error _ => none

/-! ### The invariant -/

/-- The record of a fault says what the state shows (60_exceptions.md R170): the detail is the state's own value and
its condition holds there. -/
def State.confirms (s : State) : FaultInfo → Prop
  | .invalidOpcode op => op = s.ir ∧ lookup s.cfg op = none
  | .outOfBounds a _ => s.cfg.memSize ≤ a
  | .stackOverflow v => s.cfg.stackCheck = .fault ∧ v = s.sp ∧ v = 0
  | .stackUnderflow v => s.cfg.stackCheck = .fault ∧ v = s.sp ∧ s.cfg.spInit.toNat ≤ v.toNat
  | .invalidRegister r _ => 7 < r.toNat
  | .returnAddressUnrepresentable n => n = s.pc + 2 ∧ 255 < n

/-- What holds of every state of a run: the configuration is legal (00_scope.md R5), memory is canonical and inside its
bounds (20_memory.md R40), `pc` is at most `max(MEM_SIZE, 255)` (10_state.md R24), and a fault record names the address
`pc` still holds and a cause the state confirms (60_exceptions.md R170 to R172). -/
structure State.Inv (s : State) : Prop where
  legal : s.cfg.wf = true
  canonical : s.mem.wf = true
  inside : s.mem.within s.cfg.memSize = true
  pcBound : s.pc ≤ max s.cfg.memSize 255
  truthful : ∀ f, s.status = .halted (.fault f) → f.addr = s.pc ∧ s.confirms f.info

end Sys2Proof.Machine
end

