-- ==== Sys2Proof/Certificates/Slice0/Obligations.lean ====
section
/-! DEFINITION. The statements about the CA1 core. Each docstring names the words of spec/ it formalises; where a clause
rests on a choice (of the spec, a row D<n> of 92_eei_decisions.md, or of the model) it says so and names the log entry. -/

open Sys2Proof Sys2Proof.Machine

/-! ### Encoding and decoding -/

/-- Decoding the bytes of an instruction the dispatch table holds gives the instruction back, whatever follows, with every
operand byte at every value (30_encoding.md, sections 1 to 3 and 6; that RET has no operand and JMP one: D9, log 7). -/
def Obligations.DecodeEncodeRoundTrip : Prop :=
  ∀ (cfg : Config) (i : Instr) (rest : List Byte), cfg.wf = true → i.present cfg = true →
    decode cfg (encode cfg.opc i ++ rest) = .ok (i, rest)

/-- What the decoder reads is exactly the encoding: no bit of an operand is masked or dropped, and no other bytes decode to
the instruction (30_encoding.md, sections 1 to 3; the formats of RET and JMP: D9, log 7). -/
def Obligations.DecodedBytesAreTheEncoding : Prop :=
  ∀ (cfg : Config) (bs rest : List Byte) (i : Instr), decode cfg bs = .ok (i, rest) →
    bs = encode cfg.opc i ++ rest ∧ i.present cfg = true

/-- Words of spec/opcode_table.json written out from its "encoding" column under OPC_LS8 (log 2: PRESUMED by the spec),
first byte in the low bits, operands R1 or R0, R2 and immediate 8. The words of RET and JMP decode because
`decodeTableWord` decodes under RET_JMP = Implement (the model's choice, log 8; D9); under the default Omit their bytes are
InvalidOpcode (95_test_vectors.md F5, F6). -/
def Obligations.WrittenOutWordsDecode : Prop :=
  decodeTableWord 8 0b00000001 = some .hlt ∧
  decodeTableWord 24 0b00001000_00000001_10000010 = some (.ldi 1 8) ∧
  decodeTableWord 24 0b00000010_00000001_10100010 = some (.mul 1 2) ∧
  decodeTableWord 16 0b00000001_01000111 = some (.prn 1) ∧
  decodeTableWord 16 0b00000001_01000101 = some (.push 1) ∧
  decodeTableWord 16 0b00000001_01000110 = some (.pop 1) ∧
  decodeTableWord 16 0b00000001_01010000 = some (.call 1) ∧
  decodeTableWord 8 0b00010001 = some .ret ∧
  decodeTableWord 16 0b00000001_01010100 = some (.jmp 1)

/-- R65: the decoder selects the one entry whose whole opcode byte is equal; the table holds seven mnemonics always and RET
and JMP only under Implement; a byte equal to no entry is no instruction; the table is fixed, no step changes it. -/
def Obligations.LookupIsExactOpcodeMatch : Prop :=
  ∀ (cfg : Config) (op : Byte), cfg.wf = true →
    (∀ m, lookup cfg op = some m ↔
      op = opcodeOf cfg.opc m ∧ ((m = .ret ∨ m = .jmp) → cfg.retJmp = .implemented)) ∧
    (lookup cfg op = none ↔
      ∀ m, ((m = .ret ∨ m = .jmp) → cfg.retJmp = .implemented) → op ≠ opcodeOf cfg.opc m) ∧
    ∀ s t : State, s.cfg = cfg → step s = .next t → lookup t.cfg op = lookup cfg op

/-- R152: under Omit the bytes OPC would give RET and JMP raise InvalidOpcode like any unmapped byte; under Implement they
run RET and JMP. No setting makes them a no-op. The parameter is D9 (log 7). -/
def Obligations.RetJmpParameterSelects : Prop :=
  ∀ (s : State) (m : Mnemonic), (m = .ret ∨ m = .jmp) → ({ s.cfg with retJmp := .implemented } : Config).wf = true →
    s.status = .running → s.pc < s.cfg.memSize → s.mem.read s.pc = opcodeOf s.cfg.opc m →
    (s.cfg.retJmp = .omitted →
      step s = .next { s with
        ir := s.mem.read s.pc
        status := .halted (.fault { addr := s.pc, info := .invalidOpcode (s.mem.read s.pc) }) }) ∧
    (s.cfg.retJmp = .implemented → m = .ret → step s = exec .ret { s with ir := s.mem.read s.pc }) ∧
    (s.cfg.retJmp = .implemented → m = .jmp → s.pc + 1 < s.cfg.memSize →
      step s = exec (.jmp (s.mem.read (s.pc + 1))) { s with ir := s.mem.read s.pc })

/-! ### The cycle -/

/-- A step runs the decoded instruction: when the bytes at `pc` are those of an instruction the table holds, a step is
`exec` of it, in the state whose `ir` holds its opcode (40_fetch_decode_execute.md, section 2). Nothing else is added
around `exec`; `pc` still is the address of the opcode byte. -/
def Obligations.StepRunsTheDecodedInstruction : Prop :=
  ∀ (s : State) (i : Instr), s.cfg.wf = true → s.status = .running → i.present s.cfg = true →
    s.pc + i.length ≤ s.cfg.memSize →
    (∀ (k : Nat) (h : k < (encode s.cfg.opc i).length), s.mem.read (s.pc + k) = (encode s.cfg.opc i)[k]) →
    step s = exec i { s with ir := opcodeOf s.cfg.opc i.mnemonic }

/-- R80: the control state machine. From RUNNING a cycle goes to RUNNING when it completes an instruction other than HLT, to
HALTED with cause Hlt when it executes HLT, and to HALTED with a fault when it raises one (`State.cycleFault` is not none
exactly when the condition of some fault holds); from HALTED there is no transition; reset goes from any state to the one that
construction leaves, RUNNING at `pc` 0 (its other values are in ResetValues). -/
def Obligations.ControlStateMachineTransitions : Prop :=
  ∀ s : State, s.cfg.wf = true →
    (s.status = .running → ∃ t, step s = .next t ∧
      (t.status = .running ↔ s.cycleFault = none ∧ s.mem.read s.pc ≠ s.cfg.opc.hlt) ∧
      (t.status = .halted .hlt ↔ s.cycleFault = none ∧ s.mem.read s.pc = s.cfg.opc.hlt) ∧
      ((∃ f, t.status = .halted (.fault f)) ↔ s.cycleFault ≠ none)) ∧
    (∀ c, s.status = .halted c → step s = .next s) ∧
    s.hostReset = State.construct s.cfg s.mem ∧ s.hostReset.status = .running ∧ s.hostReset.pc = 0

/-- R87: in HALTED a step does nothing, and reset leaves HALTED. That the step answers the same state, and does not fail to
answer, follows 40_fetch_decode_execute.md R91 and 95_test_vectors.md F4 (log 18). -/
def Obligations.HaltedEngineDoesNothing : Prop :=
  ∀ (s : State) (c : HaltCause), s.cfg.wf = true → s.status = .halted c →
    step s = .next s ∧ s.hostReset.status = .running

/-- The fetch: past the end of memory it faults with `ir` unchanged (D24, log 23), otherwise it leaves the byte at `pc` in
`ir`, whatever the cycle goes on to do (40_fetch_decode_execute.md, section 2; 10_state.md, section 3). -/
def Obligations.FetchLatchesTheOpcodeOrFaults : Prop :=
  ∀ s : State, s.cfg.wf = true → s.status = .running →
    (s.cfg.memSize ≤ s.pc →
      step s = .next { s with status := .halted (.fault { addr := s.pc, info := .outOfBounds s.pc .fetch }) }) ∧
    (s.pc < s.cfg.memSize → ∃ t, step s = .next t ∧ t.ir = s.mem.read s.pc)

/-- R83: an opcode without an entry halts the engine with the fetch address and the opcode, and changes no register or memory
cell; `ir` keeps the opcode and `pc` the address. -/
def Obligations.InvalidOpcodeHaltsTheEngine : Prop :=
  ∀ s : State, s.cfg.wf = true → s.status = .running → s.pc < s.cfg.memSize → lookup s.cfg (s.mem.read s.pc) = none →
    ∃ t, step s = .next t ∧
      t.status = .halted (.fault { addr := s.pc, info := .invalidOpcode (s.mem.read s.pc) }) ∧
      t.ir = s.mem.read s.pc ∧ t.pc = s.pc ∧ t.regs = s.regs ∧ t.mem = s.mem ∧ t.output = s.output ∧ t.cfg = s.cfg

/-- An operand byte past the end of memory is an OutOfBounds fault of access Operand, the first such byte first
(42_register_ops.md, Operand helpers; 60_exceptions.md, section 3, D11, log 13). Nothing but `ir` and the run state is
written (D10, log 12); JMP is in the table by D9 (log 7). -/
def Obligations.OperandBeyondMemoryFaults : Prop :=
  ∀ (s : State) (m : Mnemonic), s.cfg.wf = true → s.status = .running → s.pc < s.cfg.memSize →
    lookup s.cfg (s.mem.read s.pc) = some m →
    (1 ≤ operandCount m → s.pc + 1 = s.cfg.memSize →
      step s = .next { s with
        ir := s.mem.read s.pc
        status := .halted (.fault { addr := s.pc, info := .outOfBounds (s.pc + 1) .operand }) }) ∧
    (2 ≤ operandCount m → s.pc + 2 = s.cfg.memSize →
      step s = .next { s with
        ir := s.mem.read s.pc
        status := .halted (.fault { addr := s.pc, info := .outOfBounds (s.pc + 2) .operand }) })

/-! ### What each instruction does when it completes -/

/-- HLT completes in every state: HALTED with cause Hlt, everything else unchanged (42_register_ops.md, HLT). -/
def Obligations.HltCompletes : Prop :=
  ∀ s : State, ∃ t, exec .hlt s = .next t ∧ t.status = .halted .hlt ∧ t.pc = s.pc ∧ t.regs = s.regs ∧ t.ir = s.ir ∧
    t.mem = s.mem ∧ t.output = s.output ∧ t.cfg = s.cfg

/-- R111: the whole cycle of HLT. It halts with cause Hlt, `pc` stays at the HLT's own address, no byte but the HLT's is read
(whatever else memory held, the cycle would do the same), and no further cycle runs. -/
def Obligations.HltCycleHaltsAtItsAddress : Prop :=
  ∀ s : State, s.cfg.wf = true → s.status = .running → s.pc < s.cfg.memSize → s.mem.read s.pc = s.cfg.opc.hlt →
    ∃ t, step s = .next t ∧ t.status = .halted .hlt ∧ t.pc = s.pc ∧ t.regs = s.regs ∧ t.mem = s.mem ∧
      t.output = s.output ∧ t.ir = s.cfg.opc.hlt ∧ t.cfg = s.cfg ∧ step t = .next t ∧
      ∀ m : Memory, m.read s.pc = s.mem.read s.pc → step { s with mem := m } = .next { t with mem := m }

/-- LDI completes for every register and immediate: the immediate is in the register unchanged, `pc` is 3 further, and
nothing else changes; there is no stack check when the register is SP (42_register_ops.md, LDI). -/
def Obligations.LdiCompletes : Prop :=
  ∀ (s : State) (r imm : Byte) (h : r.toNat < 8), ∃ t, exec (.ldi r imm) s = .next t ∧
    t.readReg ⟨r.toNat, h⟩ = imm ∧ t.pc = s.pc + 3 ∧
    (∀ j : Fin 8, j.val ≠ r.toNat → t.readReg j = s.readReg j) ∧
    (∀ a, t.mem.read a = s.mem.read a) ∧
    t.ir = s.ir ∧ t.status = s.status ∧ t.output = s.output ∧ t.cfg = s.cfg

/-- MUL completes for every pair of registers: the destination holds the product of the two old values modulo 256, `pc` is 3
further, and nothing else changes (42_register_ops.md, MUL; 41_alu.md). -/
def Obligations.MulCompletes : Prop :=
  ∀ (s : State) (rA rB : Byte) (hA : rA.toNat < 8) (hB : rB.toNat < 8), ∃ t, exec (.mul rA rB) s = .next t ∧
    (t.readReg ⟨rA.toNat, hA⟩).toNat =
      ((s.readReg ⟨rA.toNat, hA⟩).toNat * (s.readReg ⟨rB.toNat, hB⟩).toNat) % 256 ∧
    t.pc = s.pc + 3 ∧
    (∀ j : Fin 8, j.val ≠ rA.toNat → t.readReg j = s.readReg j) ∧
    (∀ a, t.mem.read a = s.mem.read a) ∧
    t.ir = s.ir ∧ t.status = s.status ∧ t.output = s.output ∧ t.cfg = s.cfg

/-- PRN completes for every register: the output trace gains the register's value at its end, `pc` is 2 further, and nothing
else changes (42_register_ops.md, PRN). -/
def Obligations.PrnCompletes : Prop :=
  ∀ (s : State) (r : Byte) (h : r.toNat < 8), ∃ t, exec (.prn r) s = .next t ∧
    t.output = s.output ++ [s.readReg ⟨r.toNat, h⟩] ∧ t.pc = s.pc + 2 ∧
    (∀ j : Fin 8, t.readReg j = s.readReg j) ∧
    (∀ a, t.mem.read a = s.mem.read a) ∧
    t.ir = s.ir ∧ t.status = s.status ∧ t.cfg = s.cfg

/-- PUSH completes when the stack check passes and the new SP lies in memory: SP is one less modulo 256, the cell there holds
the register's value, or the new SP itself when the register is SP (D12, log 14), `pc` is 2 further, and nothing else
changes (43_stack.md, PUSH). -/
def Obligations.PushCompletes : Prop :=
  ∀ (s : State) (r : Byte) (h : r.toNat < 8), (s.cfg.stackCheck = .wrap ∨ s.sp ≠ 0) →
    (s.sp - 1).toNat < s.cfg.memSize → ∃ t, exec (.push r) s = .next t ∧
      t.sp = s.sp - 1 ∧ t.pc = s.pc + 2 ∧
      t.mem.read (s.sp - 1).toNat =
        (if s.cfg.spIndex.val = r.toNat then s.sp - 1 else s.readReg ⟨r.toNat, h⟩) ∧
      (∀ j : Fin 8, j ≠ s.cfg.spIndex → t.readReg j = s.readReg j) ∧
      (∀ a, a ≠ (s.sp - 1).toNat → t.mem.read a = s.mem.read a) ∧
      t.ir = s.ir ∧ t.status = s.status ∧ t.output = s.output ∧ t.cfg = s.cfg

/-- POP completes when the stack check passes and SP lies in memory: the register holds the byte at SP and SP is one more
modulo 256; when the register is SP it ends as that byte plus 1 (D12, log 14); `pc` is 2 further, and nothing else
changes, the cell read included (43_stack.md, POP). -/
def Obligations.PopCompletes : Prop :=
  ∀ (s : State) (r : Byte) (h : r.toNat < 8),
    (s.cfg.stackCheck = .wrap ∨ s.sp.toNat < s.cfg.spInit.toNat) → s.sp.toNat < s.cfg.memSize →
    ∃ t, exec (.pop r) s = .next t ∧
      (r.toNat ≠ s.cfg.spIndex.val →
        t.readReg ⟨r.toNat, h⟩ = s.mem.read s.sp.toNat ∧ t.sp.toNat = (s.sp.toNat + 1) % 256) ∧
      (r.toNat = s.cfg.spIndex.val → t.sp.toNat = ((s.mem.read s.sp.toNat).toNat + 1) % 256) ∧
      t.pc = s.pc + 2 ∧
      (∀ j : Fin 8, j ≠ s.cfg.spIndex → j.val ≠ r.toNat → t.readReg j = s.readReg j) ∧
      (∀ a, t.mem.read a = s.mem.read a) ∧
      t.ir = s.ir ∧ t.status = s.status ∧ t.output = s.output ∧ t.cfg = s.cfg

/-- CALL completes when the stack check passes, the return address fits a byte (D13, log 15) and the new SP lies in memory:
the cell at the new SP holds `pc + 2`, `pc` is the register's value, or the new SP when the register is SP (D12, log 14),
and nothing else changes (44_control_transfer.md, CALL). The target is not checked. -/
def Obligations.CallCompletes : Prop :=
  ∀ (s : State) (r : Byte) (h : r.toNat < 8), (s.cfg.stackCheck = .wrap ∨ s.sp ≠ 0) → s.pc + 2 ≤ 255 →
    (s.sp - 1).toNat < s.cfg.memSize → ∃ t, exec (.call r) s = .next t ∧
      t.sp = s.sp - 1 ∧ (t.mem.read (s.sp - 1).toNat).toNat = s.pc + 2 ∧
      t.pc = (if s.cfg.spIndex.val = r.toNat then s.sp - 1 else s.readReg ⟨r.toNat, h⟩).toNat ∧
      (∀ j : Fin 8, j ≠ s.cfg.spIndex → t.readReg j = s.readReg j) ∧
      (∀ a, a ≠ (s.sp - 1).toNat → t.mem.read a = s.mem.read a) ∧
      t.ir = s.ir ∧ t.status = s.status ∧ t.output = s.output ∧ t.cfg = s.cfg

/-- RET completes when the stack check passes and SP lies in memory: `pc` is the byte at SP, SP is one more modulo 256, and
nothing else changes (44_control_transfer.md, RET: the spec's reading, D9, log 7). -/
def Obligations.RetCompletes : Prop :=
  ∀ s : State, (s.cfg.stackCheck = .wrap ∨ s.sp.toNat < s.cfg.spInit.toNat) → s.sp.toNat < s.cfg.memSize →
    ∃ t, exec .ret s = .next t ∧
      t.pc = (s.mem.read s.sp.toNat).toNat ∧ t.sp.toNat = (s.sp.toNat + 1) % 256 ∧
      (∀ j : Fin 8, j ≠ s.cfg.spIndex → t.readReg j = s.readReg j) ∧
      (∀ a, t.mem.read a = s.mem.read a) ∧
      t.ir = s.ir ∧ t.status = s.status ∧ t.output = s.output ∧ t.cfg = s.cfg

/-- JMP completes for every register: `pc` is the register's value, unchecked, and nothing else changes, SP and memory
included (44_control_transfer.md, JMP: the spec's reading, D9, log 7). -/
def Obligations.JmpCompletes : Prop :=
  ∀ (s : State) (r : Byte) (h : r.toNat < 8), ∃ t, exec (.jmp r) s = .next t ∧
    t.pc = (s.readReg ⟨r.toNat, h⟩).toNat ∧
    (∀ j : Fin 8, t.readReg j = s.readReg j) ∧
    (∀ a, t.mem.read a = s.mem.read a) ∧
    t.ir = s.ir ∧ t.status = s.status ∧ t.output = s.output ∧ t.cfg = s.cfg

/-! ### Frames, of completions and of faults alike

That a faulting instruction, too, leaves all this unchanged is the spec's choice D10 (log 12); RET and JMP follow the spec's
reading D9 (log 7). -/

/-- HLT, LDI, MUL, PRN and JMP: no register but the destination of LDI and MUL changes, and no byte of memory; only PRN
touches the output (10_state.md, section 1; 20_memory.md, section 1; D9 and D10, logs 7 and 12). -/
def Obligations.RegisterInstructionsFrame : Prop :=
  ∀ (s t : State) (i : Instr) (dest : Option Byte),
    ((i = .hlt ∧ dest = none) ∨ (∃ r imm, i = .ldi r imm ∧ dest = some r) ∨
      (∃ rA rB, i = .mul rA rB ∧ dest = some rA) ∨ (∃ r, i = .prn r ∧ dest = none) ∨ (∃ r, i = .jmp r ∧ dest = none)) →
    exec i s = .next t →
    (∀ j : Fin 8, (∀ r, dest = some r → j.val ≠ r.toNat) → t.readReg j = s.readReg j) ∧
    (∀ a, t.mem.read a = s.mem.read a) ∧ t.ir = s.ir ∧ t.cfg = s.cfg ∧
    ((∀ r, i ≠ .prn r) → t.output = s.output)

/-- PUSH and CALL: no register but SP changes, and no byte of memory but the one at `SP - 1`, the address stored to
(43_stack.md, PUSH; 44_control_transfer.md, CALL; D10, log 12). -/
def Obligations.PushingInstructionsFrame : Prop :=
  ∀ (s t : State) (i : Instr), ((∃ r, i = .push r) ∨ ∃ r, i = .call r) → exec i s = .next t →
    (∀ j : Fin 8, j ≠ s.cfg.spIndex → t.readReg j = s.readReg j) ∧
    (∀ a, a ≠ (s.sp - 1).toNat → t.mem.read a = s.mem.read a) ∧
    t.ir = s.ir ∧ t.output = s.output ∧ t.cfg = s.cfg

/-- POP and RET: no register but SP and POP's destination changes, and no byte of memory (43_stack.md, POP;
44_control_transfer.md, RET; D9 and D10, logs 7 and 12). -/
def Obligations.PoppingInstructionsFrame : Prop :=
  ∀ (s t : State) (i : Instr) (dest : Option Byte),
    ((∃ r, i = .pop r ∧ dest = some r) ∨ (i = .ret ∧ dest = none)) → exec i s = .next t →
    (∀ j : Fin 8, j ≠ s.cfg.spIndex → (∀ r, dest = some r → j.val ≠ r.toNat) → t.readReg j = s.readReg j) ∧
    (∀ a, t.mem.read a = s.mem.read a) ∧ t.ir = s.ir ∧ t.output = s.output ∧ t.cfg = s.cfg

/-! ### Faults -/

/-- A register operand above 7 faults in every instruction that has one, operand 1 before operand 2, before any stack check,
and leaves all but the run state as it was (60_exceptions.md, sections 1 and 3: the spec's choices D8 and D11, logs 11 and
13; that nothing else is written: D10, log 12; JMP: the spec's reading D9, log 7). -/
def Obligations.RegisterOperandAboveSevenFaults : Prop :=
  ∀ (s : State) (r q imm : Byte), 7 < r.toNat →
    (∀ i : Instr, (i = .ldi r imm ∨ i = .mul r q ∨ i = .prn r ∨ i = .push r ∨ i = .pop r ∨ i = .call r ∨ i = .jmp r) →
      exec i s = .next { s with status := .halted (.fault { addr := s.pc, info := .invalidRegister r .first }) }) ∧
    (q.toNat ≤ 7 →
      exec (.mul q r) s =
        .next { s with status := .halted (.fault { addr := s.pc, info := .invalidRegister r .second }) })

/-- Under STACK_CHECK = Fault, PUSH and CALL at SP = 0 raise StackOverflow and write nothing else (43_stack.md, Stack-pointer
arithmetic and bounds, PUSH; 44_control_transfer.md, CALL; log 6), also where the new SP lies outside memory or CALL's return
address does not fit: the stack check comes first (60_exceptions.md, section 3: the spec's choice D11, log 13; that
nothing else is written: D10, log 12). -/
def Obligations.PushAtZeroOverflows : Prop :=
  ∀ (s : State) (r : Byte), r.toNat < 8 → s.cfg.stackCheck = .fault → s.sp = 0 →
    exec (.push r) s = .next { s with status := .halted (.fault { addr := s.pc, info := .stackOverflow 0 }) } ∧
    exec (.call r) s = .next { s with status := .halted (.fault { addr := s.pc, info := .stackOverflow 0 }) }

/-- Under STACK_CHECK = Fault, POP and RET at SP at or above SP_INIT raise StackUnderflow and write nothing else
(43_stack.md, Stack-pointer arithmetic and bounds, POP; 44_control_transfer.md, RET: D9, log 7; log 6), also where SP lies
outside memory: the stack check comes first (60_exceptions.md, section 3: the spec's choice D11, log 13; that nothing else is written: D10,
log 12). -/
def Obligations.PopAtTheInitialBoundaryUnderflows : Prop :=
  ∀ (s : State) (r : Byte), r.toNat < 8 → s.cfg.stackCheck = .fault → s.cfg.spInit.toNat ≤ s.sp.toNat →
    exec (.pop r) s = .next { s with status := .halted (.fault { addr := s.pc, info := .stackUnderflow s.sp }) } ∧
    exec .ret s = .next { s with status := .halted (.fault { addr := s.pc, info := .stackUnderflow s.sp }) }

/-- R175: the two stack faults are raised only under STACK_CHECK = Fault, by the checks of PUSH and CALL, and of POP and RET;
under Wrap neither is raised. -/
def Obligations.StackFaultsOnlyUnderTheFaultPolicy : Prop :=
  ∀ (s t : State) (i : Instr) (a : Nat) (v : Byte), s.status = .running → exec i s = .next t →
    (t.status = .halted (.fault { addr := a, info := .stackOverflow v }) →
      s.cfg.stackCheck = .fault ∧ s.sp = 0 ∧ v = s.sp ∧ ((∃ r, i = .push r) ∨ ∃ r, i = .call r)) ∧
    (t.status = .halted (.fault { addr := a, info := .stackUnderflow v }) →
      s.cfg.stackCheck = .fault ∧ s.cfg.spInit.toNat ≤ s.sp.toNat ∧ v = s.sp ∧ ((∃ r, i = .pop r) ∨ i = .ret))

/-- CALL with a return address above 255 raises ReturnAddressUnrepresentable, after the stack check and before the memory
bound check, and writes nothing else (60_exceptions.md, sections 1 and 3: the spec's choices D13, D11 and D10, logs
15, 13 and 12). -/
def Obligations.CallAboveByteRangeFaults : Prop :=
  ∀ (s : State) (r : Byte), r.toNat < 8 → (s.cfg.stackCheck = .wrap ∨ s.sp ≠ 0) → 255 < s.pc + 2 →
    exec (.call r) s =
      .next { s with status := .halted (.fault { addr := s.pc, info := .returnAddressUnrepresentable (s.pc + 2) }) }

/-- A stack access outside memory is an OutOfBounds fault at its own address and writes nothing else: DataWrite for PUSH and
CALL, DataRead for POP and RET (20_memory.md, section 1; 43_stack.md; 44_control_transfer.md). That nothing else is
written is the spec's choice D10 (log 12), RET follows its reading D9 (log 7), the stack checks are D7's (log 6), and CALL's
return address must fit first, D13 (log 15). -/
def Obligations.StackAccessBeyondMemoryFaults : Prop :=
  ∀ (s : State) (r : Byte), r.toNat < 8 →
    ((s.cfg.stackCheck = .wrap ∨ s.sp ≠ 0) → s.cfg.memSize ≤ (s.sp - 1).toNat →
      exec (.push r) s =
        .next { s with status := .halted (.fault { addr := s.pc, info := .outOfBounds (s.sp - 1).toNat .dataWrite }) } ∧
      (s.pc + 2 ≤ 255 → exec (.call r) s =
        .next { s with status := .halted (.fault { addr := s.pc, info := .outOfBounds (s.sp - 1).toNat .dataWrite }) })) ∧
    ((s.cfg.stackCheck = .wrap ∨ s.sp.toNat < s.cfg.spInit.toNat) → s.cfg.memSize ≤ s.sp.toNat →
      exec (.pop r) s =
        .next { s with status := .halted (.fault { addr := s.pc, info := .outOfBounds s.sp.toNat .dataRead }) } ∧
      exec .ret s =
        .next { s with status := .halted (.fault { addr := s.pc, info := .outOfBounds s.sp.toNat .dataRead }) })

/-- A cycle raises exactly the first fault, in the priority order of the spec, whose condition holds, and none when none holds:
the nested checks of the machine refine the flat list `State.cycleFault` (60_exceptions.md, section 3: the spec's choice
D11, log 13; the faults D8 and D13 are its choices too, logs 11 and 15, and RET and JMP
its reading D9, log 7). -/
def Obligations.CycleRaisesTheFirstFaultInPriorityOrder : Prop :=
  ∀ s : State, s.cfg.wf = true → s.status = .running →
    (∀ f, s.cycleFault = some f → ∃ t, step s = .next t ∧ t.status = .halted (.fault { addr := s.pc, info := f })) ∧
    (s.cycleFault = none → ∃ t, step s = .next t ∧ ∀ f, t.status ≠ .halted (.fault f))

/-- Faults are precise: the cycle that enters HALTED by a fault has written the record, with the address of its own
instruction, and `ir`, and nothing else (60_exceptions.md, section 2: the spec's choices D10 and D24, logs 12 and 23). -/
def Obligations.FaultsArePrecise : Prop :=
  ∀ (s t : State) (f : FaultRecord), s.status = .running → step s = .next t → t.status = .halted (.fault f) →
    f.addr = s.pc ∧
    t = { s with
      ir := if s.pc < s.cfg.memSize then s.mem.read s.pc else s.ir
      status := .halted (.fault f) }

/-- The code of a fault record is that of its kind, 1 to 6, and tells the kind (60_exceptions.md, section 1: the spec's own
numbers, D14, log 16). -/
def Obligations.FaultCodesTellTheKind : Prop :=
  ∀ f : FaultRecord,
    (f.code = 1 ↔ ∃ op, f.info = .invalidOpcode op) ∧ (f.code = 2 ↔ ∃ a k, f.info = .outOfBounds a k) ∧
    (f.code = 3 ↔ ∃ v, f.info = .stackOverflow v) ∧ (f.code = 4 ↔ ∃ v, f.info = .stackUnderflow v) ∧
    (f.code = 5 ↔ ∃ r k, f.info = .invalidRegister r k) ∧
    (f.code = 6 ↔ ∃ n, f.info = .returnAddressUnrepresentable n)

/-! ### Whole-machine rules -/

/-- Every step keeps the invariant: a legal configuration, canonical memory inside its bounds, `pc` at most
`max(MEM_SIZE, 255)`, and a truthful fault record (that `pc` does not wrap: D6, log 21; that a fault leaves `pc` and the
registers its record speaks of: D10, log 12). -/
def Obligations.EveryStepKeepsTheInvariant : Prop :=
  ∀ s t : State, s.Inv → step s = .next t → t.Inv

/-- The invariant holds at reset, under the defaults and under every legal configuration and launch memory. -/
def Obligations.ResetMeetsTheInvariant : Prop :=
  State.reset.Inv ∧
  ∀ (cfg : Config) (mem : Memory), cfg.wf = true → mem.wf = true → mem.within cfg.memSize = true →
    (State.construct cfg mem).Inv

/-- Every step under a legal configuration answers a next state: the model stops on no instruction, on no fault of the spec
(log 17), on no memory cell (log 9) and not in HALTED (log 18). Which state it is, other statements say
(40_fetch_decode_execute.md, section 2). -/
def Obligations.EveryStepAnswersANextState : Prop :=
  ∀ s : State, s.cfg.wf = true → ∃ t, step s = .next t

/-- No step changes the configuration, hence the dispatch table, and once the engine is HALTED no step changes anything, the
fault record included (30_encoding.md, sections 3 and 5; 10_state.md, section 4; log 18). -/
def Obligations.ConfigurationAndHaltAreFixed : Prop :=
  ∀ s t : State, step s = .next t → t.cfg = s.cfg ∧ (s.status ≠ .running → t = s)

/-- No instruction reads or writes `ir`: executing with another `ir` gives the same state but for that `ir`
(10_state.md, section 3). -/
def Obligations.InstructionsIgnoreTheInstructionRegister : Prop :=
  ∀ (i : Instr) (s t : State) (v : Byte), exec i s = .next t →
    t.ir = s.ir ∧ exec i { s with ir := v } = .next { t with ir := v }

/-- R30: the output trace is what PRN has emitted, in execution order, and is empty at first; a cycle leaves it as it was or
is a PRN that adds its register's 8-bit value at the end; and each PRN of a register 0 to 7, its operand in memory, adds
that one value. -/
def Obligations.OutputGrowsOnlyByPrn : Prop :=
  (∀ (cfg : Config) (mem : Memory), (State.construct cfg mem).output = []) ∧
  (∀ s t : State, step s = .next t →
    t.output = s.output ∨
    ∃ (r : Byte) (h : r.toNat < 8), s.pc + 1 < s.cfg.memSize ∧ s.mem.read s.pc = s.cfg.opc.prn ∧
      s.mem.read (s.pc + 1) = r ∧ t.output = s.output ++ [s.readReg ⟨r.toNat, h⟩]) ∧
  ∀ (s : State) (h : (s.mem.read (s.pc + 1)).toNat < 8), s.cfg.wf = true → s.status = .running →
    s.pc + 1 < s.cfg.memSize → s.mem.read s.pc = s.cfg.opc.prn →
    ∃ t, step s = .next t ∧ t.output = s.output ++ [s.readReg ⟨(s.mem.read (s.pc + 1)).toNat, h⟩]

/-- R35: what construction leaves, whatever the engine held before: registers 0 but SP, which is SP_INIT, `pc` 0, `ir` 0,
RUNNING, no fault, empty output, memory untouched. `State.reset` is such a construction under the defaults. -/
def Obligations.ResetValues : Prop :=
  (∀ s : State,
    s.hostReset.sp = s.cfg.spInit ∧ (∀ j : Fin 8, j ≠ s.cfg.spIndex → s.hostReset.readReg j = 0) ∧
    s.hostReset.pc = 0 ∧ s.hostReset.ir = 0 ∧ s.hostReset.status = .running ∧ s.hostReset.haltCause = none ∧
    s.hostReset.faultPort = none ∧ s.hostReset.output = [] ∧ s.hostReset.mem = s.mem ∧ s.hostReset.cfg = s.cfg) ∧
  State.reset.hostReset = State.reset

/-- The stack region under STACK_CHECK = Fault: from SP at most SP_INIT, PUSH and CALL never take SP below 0 and POP (not into
SP) and RET never above SP_INIT, so SP moves by one without wrapping or stays. Of all instructions only LDI, MUL and POP with
SP as destination may leave the region: they write SP unchecked (43_stack.md, Stack-pointer arithmetic and bounds; D7, log 6; RET: D9, log 7; that a faulting
instruction leaves SP as it was: D10, log 12). -/
def Obligations.StackPointerStaysInItsRegion : Prop :=
  ∀ (s t : State) (i : Instr), s.cfg.stackCheck = .fault → s.sp.toNat ≤ s.cfg.spInit.toNat → exec i s = .next t →
    (((∃ r, i = .push r) ∨ ∃ r, i = .call r) →
      t.sp.toNat ≤ s.cfg.spInit.toNat ∧ (t.sp.toNat + 1 = s.sp.toNat ∨ t.sp = s.sp)) ∧
    (((∃ r, i = .pop r ∧ r.toNat ≠ s.cfg.spIndex.val) ∨ i = .ret) →
      t.sp.toNat ≤ s.cfg.spInit.toNat ∧ (t.sp.toNat = s.sp.toNat + 1 ∨ t.sp = s.sp)) ∧
    (t.sp.toNat ≤ s.cfg.spInit.toNat ∨
      ∃ r : Byte, r.toNat = s.cfg.spIndex.val ∧ ((∃ imm, i = .ldi r imm) ∨ (∃ rB, i = .mul r rB) ∨ i = .pop r))

/-! ### Two instructions in a row -/

/-- The stack balance law: a PUSH and then a POP, neither of SP, from an SP the checks allow, raise no fault, move the value
and restore SP (43_stack.md, Stack balance). -/
def Obligations.PushThenPopBalances : Prop :=
  ∀ (s : State) (r p : Byte) (hr : r.toNat < 8) (hp : p.toNat < 8),
    r.toNat ≠ s.cfg.spIndex.val → p.toNat ≠ s.cfg.spIndex.val →
    (s.cfg.stackCheck = .wrap ∨ (1 ≤ s.sp.toNat ∧ s.sp.toNat ≤ s.cfg.spInit.toNat)) →
    (s.sp - 1).toNat < s.cfg.memSize →
    ∃ t u, exec (.push r) s = .next t ∧ exec (.pop p) t = .next u ∧
      u.readReg ⟨p.toNat, hp⟩ = s.readReg ⟨r.toNat, hr⟩ ∧ u.sp = s.sp ∧ u.status = s.status

/-- After CALL, a RET with SP and the top of the stack as CALL left them goes to the CALL's address plus 2 and restores SP
(44_control_transfer.md, RET, corner cases: the spec's reading, D9, log 7). -/
def Obligations.RetReturnsAfterCall : Prop :=
  ∀ (s : State) (r : Byte), r.toNat < 8 →
    (s.cfg.stackCheck = .wrap ∨ (1 ≤ s.sp.toNat ∧ s.sp.toNat ≤ s.cfg.spInit.toNat)) →
    s.pc + 2 ≤ 255 → (s.sp - 1).toNat < s.cfg.memSize →
    ∃ t, exec (.call r) s = .next t ∧
      ∀ u : State, u.cfg = t.cfg → u.sp = t.sp → u.mem.read t.sp.toNat = t.mem.read t.sp.toNat →
        ∃ w, exec .ret u = .next w ∧ w.pc = s.pc + 2 ∧ w.sp = s.sp

/-- "LDI followed immediately by PRN on the same register must emit exactly the loaded immediate value" (42_register_ops.md,
LDI, corner cases). -/
def Obligations.LdiThenPrnEmitsTheImmediate : Prop :=
  ∀ (s : State) (r imm : Byte), r.toNat < 8 →
    ∃ t u, exec (.ldi r imm) s = .next t ∧ exec (.prn r) t = .next u ∧ u.output = s.output ++ [imm] ∧ u.pc = s.pc + 5

/-! ### The ALU -/

/-- R101: MUL gives the exact product reduced modulo 256, and nothing else. -/
def Obligations.AluMulIsTheProductModulo256 : Prop :=
  ∀ a b : Byte, ∃ v, aluApply .mul a b = some v ∧ v.toNat = (a.toNat * b.toNat) % 256

/-- The arithmetic laws of MUL: it gives the low 8 bits of the two's-complement product too, is commutative and associative,
and has identity 1 and absorbing 0 (41_alu.md, the integer arithmetic laws). -/
def Obligations.AluMulLaws : Prop :=
  ∀ a b c v w : Byte, aluApply .mul a b = some v → aluApply .mul b c = some w →
    v = BitVec.ofInt 8 (a.toInt * b.toInt) ∧ aluApply .mul b a = some v ∧
    aluApply .mul v c = aluApply .mul a w ∧ aluApply .mul 1 a = some a ∧ aluApply .mul 0 a = some 0

/-- R102: a reserved tag has no value, and no instruction reaches one: no instruction is ever refused. -/
def Obligations.ReservedAluTagsAreRefusedAndUnreachable : Prop :=
  (∀ (tag : AluTag) (a b : Byte) (go : Byte → Answer), tag ≠ .mul →
    aluApply tag a b = none ∧ withAlu tag a b go = .refused (.reservedAluTag tag)) ∧
  ∀ (i : Instr) (s : State) (why : Refusal), exec i s ≠ .refused why

/-! ### Memory requests -/

/-- The core issues a memory request only for an address below MEM_SIZE (40_fetch_decode_execute.md, section 4; 20_memory.md,
section 1; log 26). -/
def Obligations.RequestsStayInsideMemory : Prop :=
  ∀ (s : State) (q : Request), q ∈ s.requests → q.address < s.cfg.memSize

/-- Memory changes exactly as the cycle's write request says: the cell written holds the byte written, and every other cell is
unchanged (20_memory.md, sections 1 and 2; D18, log 26; D21, log 33; that a faulting cycle writes nothing: D10, log 12). -/
def Obligations.MemoryChangesOnlyByTheWriteRequest : Prop :=
  ∀ (s t : State), step s = .next t → ∀ a : Nat,
    (∀ v, Request.write a v ∈ s.requests → t.mem.read a = v) ∧
    ((∀ v, Request.write a v ∉ s.requests) → t.mem.read a = s.mem.read a)

/-- A cycle depends on no memory cell it does not request: with another memory that agrees on the requested reads, it issues
the same requests and leaves the same core state (20_memory.md, sections 1 and 2; 30_encoding.md, section 5; D18, log 26;
D21, log 33). -/
def Obligations.CycleReadsOnlyWhatItRequests : Prop :=
  ∀ (s t : State) (m : Memory), step s = .next t →
    (∀ a k, Request.read a k ∈ s.requests → m.read a = s.mem.read a) →
    ({ s with mem := m } : State).requests = s.requests ∧
    ∃ u, step { s with mem := m } = .next u ∧ u.cfg = t.cfg ∧ u.regs = t.regs ∧ u.pc = t.pc ∧ u.ir = t.ir ∧
      u.status = t.status ∧ u.output = t.output

/-- Runs are determined by the core state and the memory contents: from two states that agree on all but how memory is listed,
any number of steps ends in two states that agree so too, or in the same refusal (40_fetch_decode_execute.md, section 3;
70_reset_and_hazards.md, section 2). -/
def Obligations.RunsDependOnlyOnMemoryContents : Prop :=
  ∀ (n : Nat) (s u : State), { s with mem := u.mem } = u → (∀ a, s.mem.read a = u.mem.read a) →
    (∃ s' u' : State, core.run n s = .next s' ∧ core.run n u = .next u' ∧
      { s' with mem := u'.mem } = u' ∧ ∀ a, s'.mem.read a = u'.mem.read a) ∨
    (core.run n s = .refused .illFormedConfiguration ∧ core.run n u = .refused .illFormedConfiguration)

/-- Self-modifying code works: a byte a cycle writes is the byte the next fetch of that address reads, with nothing in between
(20_memory.md, section 4; D18, log 26; D21, log 33). -/
def Obligations.WritesAreSeenByTheNextFetch : Prop :=
  ∀ (s t u : State) (a : Nat) (v : Byte), step s = .next t → Request.write a v ∈ s.requests →
    u.cfg = t.cfg → u.mem = t.mem → u.status = .running → u.pc = a →
    ∃ w, step u = .next w ∧ w.ir = v

/-! ### The host and the assembler -/

/-- The host's load, when the engine is HALTED or its core state is the one reset leaves (log 34): an image that fits stands at
address 0 and up, every other cell and the core state are as before; an image longer than memory is not loaded (log 29); and
during a run nothing is (70_reset_and_hazards.md, section 2). -/
def Obligations.LoadPlacesTheImageAtZero : Prop :=
  ∀ (s : State) (image : List Byte),
    ((∃ c, s.status = .halted c) ∨ s = s.hostReset → image.length ≤ s.cfg.memSize → ∃ t, s.hostLoad image = some t ∧
      (∀ (k : Nat) (h : k < image.length), t.mem.read k = image[k]) ∧
      (∀ a, image.length ≤ a → t.mem.read a = s.mem.read a) ∧ { t with mem := s.mem } = s) ∧
    (s.cfg.memSize < image.length → s.hostLoad image = none) ∧
    (s.status = .running → s ≠ s.hostReset → s.hostLoad image = none)

/-- The text of an instruction whose registers exist parses back to it, under every configuration (30_encoding.md, section 6:
the spec's choice D20, log 27). -/
def Obligations.AssemblerTextParsesBack : Prop :=
  ∀ (cfg : Config) (i : Instr), i.wellFormed = true → parseInstr cfg (instrText i) = some i

/-- A register operand may be written `Rn`, a bare `n`, or `SP`; an index above 7 is refused (30_encoding.md, section 6: the
spec's choice D20, log 27). -/
def Obligations.RegisterOperandForms : Prop :=
  ∀ (cfg : Config) (r : Byte),
    (r.toNat ≤ 7 → parseRegister cfg (decimal r.toNat) = some r ∧ parseRegister cfg ('R' :: decimal r.toNat) = some r) ∧
    (7 < r.toNat → parseRegister cfg (decimal r.toNat) = none ∧ parseRegister cfg ('R' :: decimal r.toNat) = none) ∧
    parseRegister cfg ['S', 'P'] = some (BitVec.ofNat 8 cfg.spIndex.val)

/-- The source's listing assembles, under OPC_LS8 (log 2), to the image of 95_test_vectors.md P1. -/
def Obligations.SourceListingAssembles : Prop :=
  assemble Config.default
    ['L', 'D', 'I', ' ', 'R', '0', ',', '8', ';', ' ', 'L', 'D', 'I', ' ', 'R', '1', ',', '9', ';', ' ',
      'M', 'U', 'L', ' ', 'R', '0', ',', 'R', '1', ';', ' ', 'P', 'R', 'N', ' ', 'R', '0', ';', ' ', 'H', 'L', 'T'] =
    some [0x82, 0x00, 0x08, 0x82, 0x01, 0x09, 0xA2, 0x00, 0x01, 0x47, 0x00, 0x01]
end

