-- ==== Sys2Proof/Laws/Host.lean ====
section
/-! SUPPORT. What the host's load can do (70_reset_and_hazards.md R202 to R204). -/

namespace Sys2Proof.Machine

/-- A load is accepted in HALTED and in the state reset leaves, and nowhere else. -/
theorem State.acceptsLoad_iff (s : State) :
    s.acceptsLoad = true ↔ (∃ c, s.status = .halted c) ∨ s = s.hostReset := by
  unfold State.acceptsLoad State.isRunning
  cases s.status <;> simp

/-- What a load does when it answers: memory holds the image, and nothing else changes. -/
theorem State.hostLoad_eq_some {s t : State} {image : List Byte} :
    s.hostLoad image = some t ↔
      s.acceptsLoad = true ∧ image.length ≤ s.cfg.memSize ∧ { s with mem := s.mem.load 0 image } = t := by
  unfold State.hostLoad
  split <;> simp_all

/-- When a load answers nothing: during a run, or with an image that does not fit. -/
theorem State.hostLoad_eq_none {s : State} {image : List Byte} :
    s.hostLoad image = none ↔ s.acceptsLoad = false ∨ s.cfg.memSize < image.length := by
  unfold State.hostLoad
  cases s.acceptsLoad <;> simp

/-- The state reset leaves is a fixed point of reset, so it accepts a load. -/
theorem State.acceptsLoad_hostReset (s : State) : s.hostReset.acceptsLoad = true :=
  (State.acceptsLoad_iff _).2 (.inr rfl)

end Sys2Proof.Machine
end

