-- ==== Sys2Proof/Laws/Memory.lean ====
section
/-! SUPPORT. The laws of memory: a read after a write, and the canonical form, which every operation keeps. -/

namespace Sys2Proof.Machine

/-! ### Read after write (20_memory.md R41) -/

@[simp] theorem Memory.lookup_write_same (m : Memory) (a : Nat) (v : Byte) : (m.write a v).lookup a = some v := by
  induction m with
  | nil => simp [Memory.write, Memory.lookup]
  | cons c m ih =>
    obtain ⟨k, w⟩ := c
    simp only [Memory.write]
    split
    · simp [Memory.lookup]
    · split
      · simp [Memory.lookup]
      · rename_i h1 h2
        simp [Memory.lookup, Ne.symm h2, ih]

theorem Memory.lookup_write_ne (m : Memory) {a b : Nat} (v : Byte) (h : b ≠ a) :
    (m.write a v).lookup b = m.lookup b := by
  induction m with
  | nil => simp [Memory.write, Memory.lookup, Ne.symm h]
  | cons c m ih =>
    obtain ⟨k, w⟩ := c
    simp only [Memory.write]
    split
    · simp [Memory.lookup, Ne.symm h]
    · split
      · rename_i h1 h2
        subst h2
        simp [Memory.lookup, Ne.symm h]
      · simp only [Memory.lookup, ih]

@[simp] theorem Memory.read_write_same (m : Memory) (a : Nat) (v : Byte) : (m.write a v).read a = v := by
  simp [Memory.read]

theorem Memory.read_write_ne (m : Memory) {a b : Nat} (v : Byte) (h : b ≠ a) : (m.write a v).read b = m.read b := by
  simp [Memory.read, Memory.lookup_write_ne m v h]

/-- A read after a write, at any address. -/
theorem Memory.read_write (m : Memory) (a b : Nat) (v : Byte) :
    (m.write a v).read b = if b = a then v else m.read b := by
  split
  · subst b; simp
  · exact Memory.read_write_ne m v ‹_›

/-! ### The canonical form -/

theorem Memory.wf_cons (c : Host.Cell) (m : Memory) :
    Memory.wf (c :: m) = true ↔ (∀ d ∈ m, c.1 < d.1) ∧ Memory.wf m = true := by
  simp [Memory.wf]

/-- A write lists no address but its own and those listed before. -/
theorem Memory.mem_write {m : Memory} {a : Nat} {v : Byte} {d : Host.Cell} (h : d ∈ m.write a v) :
    d = (a, v) ∨ d ∈ m := by
  induction m with
  | nil => simpa [Memory.write] using h
  | cons c m ih =>
    obtain ⟨k, w⟩ := c
    simp only [Memory.write] at h
    split at h
    · simpa using h
    · split at h
      · rcases List.mem_cons.1 h with rfl | h
        · exact .inl rfl
        · exact .inr (List.mem_cons_of_mem _ h)
      · rcases List.mem_cons.1 h with rfl | h
        · exact .inr List.mem_cons_self
        · exact (ih h).imp id (List.mem_cons_of_mem _)

theorem Memory.wf_write (m : Memory) (a : Nat) (v : Byte) (h : m.wf = true) : (m.write a v).wf = true := by
  induction m with
  | nil => rfl
  | cons c m ih =>
    obtain ⟨k, w⟩ := c
    obtain ⟨hk, hm⟩ := (Memory.wf_cons _ _).1 h
    simp only [Memory.write]
    split
    · rename_i ha
      refine (Memory.wf_cons _ _).2 ⟨fun d hd => ?_, h⟩
      rcases List.mem_cons.1 hd with rfl | hd
      · exact ha
      · exact ha.trans (hk d hd)
    · split
      · rename_i ha
        subst ha
        exact (Memory.wf_cons _ _).2 ⟨hk, hm⟩
      · rename_i h1 h2
        refine (Memory.wf_cons _ _).2 ⟨fun d hd => ?_, ih hm⟩
        rcases Memory.mem_write hd with rfl | hd
        · show k < a
          omega
        · exact hk d hd

theorem Memory.within_iff (size : Nat) (m : Memory) : m.within size = true ↔ ∀ d ∈ m, d.1 < size := by
  simp [Memory.within]

theorem Memory.within_write {size : Nat} (m : Memory) {a : Nat} (v : Byte) (h : m.within size = true) (ha : a < size) :
    (m.write a v).within size = true := by
  rw [Memory.within_iff] at *
  intro d hd
  rcases Memory.mem_write hd with rfl | hd
  · exact ha
  · exact h d hd

/-- Loading an image keeps the canonical form. -/
theorem Memory.wf_load (bs : List Byte) (m : Memory) (a : Nat) (h : m.wf = true) : (m.load a bs).wf = true := by
  induction bs generalizing m a with
  | nil => exact h
  | cons b bs ih => exact ih _ _ (Memory.wf_write m a b h)

/-- Placing the bytes of a word keeps the canonical form. -/
theorem Memory.wf_place (bs : List Byte) (m : Memory) (size a : Nat) (h : m.wf = true) :
    (m.place size a bs).wf = true := by
  induction bs generalizing m a with
  | nil => exact h
  | cons b bs ih =>
    refine ih _ _ ?_
    split
    · exact Memory.wf_write m a b h
    · exact h

/-- Reset lists nothing, which is canonical. -/
theorem State.reset_mem_wf : State.reset.mem.wf = true := rfl

/-! ### The fetch window -/

theorem bytesFrom_succ (m : Memory) (size a n : Nat) :
    bytesFrom m size a (n + 1) = if a < size then m.read a :: bytesFrom m size (a + 1) n else [] := rfl

/-- The window of a fetch, byte by byte. -/
theorem State.window_eq (s : State) :
    s.window =
      if s.pc < s.cfg.memSize then
        s.mem.read s.pc ::
          if s.pc + 1 < s.cfg.memSize then
            s.mem.read (s.pc + 1) ::
              if s.pc + 2 < s.cfg.memSize then [s.mem.read (s.pc + 2)] else []
          else []
      else [] := rfl

end Sys2Proof.Machine
end

