-- ==== Sys2Proof/Laws/State.lean ====
section
/-! SUPPORT. What each update of the state does to each field, so that no proof unfolds a record update. -/

namespace Sys2Proof.Machine

/-! ### writeReg -/

@[simp] theorem State.writeReg_cfg (s : State) (i : Fin 8) (v : Byte) : (s.writeReg i v).cfg = s.cfg := rfl
@[simp] theorem State.writeReg_regs (s : State) (i : Fin 8) (v : Byte) : (s.writeReg i v).regs = s.regs.set i.val v := rfl
@[simp] theorem State.writeReg_pc (s : State) (i : Fin 8) (v : Byte) : (s.writeReg i v).pc = s.pc := rfl
@[simp] theorem State.writeReg_ir (s : State) (i : Fin 8) (v : Byte) : (s.writeReg i v).ir = s.ir := rfl
@[simp] theorem State.writeReg_status (s : State) (i : Fin 8) (v : Byte) : (s.writeReg i v).status = s.status := rfl
@[simp] theorem State.writeReg_output (s : State) (i : Fin 8) (v : Byte) : (s.writeReg i v).output = s.output := rfl
@[simp] theorem State.writeReg_mem (s : State) (i : Fin 8) (v : Byte) : (s.writeReg i v).mem = s.mem := rfl

/-! ### setSp -/

@[simp] theorem State.setSp_cfg (s : State) (v : Byte) : (s.setSp v).cfg = s.cfg := rfl
@[simp] theorem State.setSp_regs (s : State) (v : Byte) : (s.setSp v).regs = s.regs.set s.cfg.spIndex.val v := rfl
@[simp] theorem State.setSp_pc (s : State) (v : Byte) : (s.setSp v).pc = s.pc := rfl
@[simp] theorem State.setSp_ir (s : State) (v : Byte) : (s.setSp v).ir = s.ir := rfl
@[simp] theorem State.setSp_status (s : State) (v : Byte) : (s.setSp v).status = s.status := rfl
@[simp] theorem State.setSp_output (s : State) (v : Byte) : (s.setSp v).output = s.output := rfl
@[simp] theorem State.setSp_mem (s : State) (v : Byte) : (s.setSp v).mem = s.mem := rfl

/-! ### setPc -/

@[simp] theorem State.setPc_cfg (s : State) (t : Nat) : (s.setPc t).cfg = s.cfg := rfl
@[simp] theorem State.setPc_regs (s : State) (t : Nat) : (s.setPc t).regs = s.regs := rfl
@[simp] theorem State.setPc_pc (s : State) (t : Nat) : (s.setPc t).pc = t := rfl
@[simp] theorem State.setPc_ir (s : State) (t : Nat) : (s.setPc t).ir = s.ir := rfl
@[simp] theorem State.setPc_status (s : State) (t : Nat) : (s.setPc t).status = s.status := rfl
@[simp] theorem State.setPc_output (s : State) (t : Nat) : (s.setPc t).output = s.output := rfl
@[simp] theorem State.setPc_mem (s : State) (t : Nat) : (s.setPc t).mem = s.mem := rfl

/-! ### latchIr -/

@[simp] theorem State.latchIr_cfg (s : State) (v : Byte) : (s.latchIr v).cfg = s.cfg := rfl
@[simp] theorem State.latchIr_regs (s : State) (v : Byte) : (s.latchIr v).regs = s.regs := rfl
@[simp] theorem State.latchIr_pc (s : State) (v : Byte) : (s.latchIr v).pc = s.pc := rfl
@[simp] theorem State.latchIr_ir (s : State) (v : Byte) : (s.latchIr v).ir = v := rfl
@[simp] theorem State.latchIr_status (s : State) (v : Byte) : (s.latchIr v).status = s.status := rfl
@[simp] theorem State.latchIr_output (s : State) (v : Byte) : (s.latchIr v).output = s.output := rfl
@[simp] theorem State.latchIr_mem (s : State) (v : Byte) : (s.latchIr v).mem = s.mem := rfl

/-! ### emit -/

@[simp] theorem State.emit_cfg (s : State) (v : Byte) : (s.emit v).cfg = s.cfg := rfl
@[simp] theorem State.emit_regs (s : State) (v : Byte) : (s.emit v).regs = s.regs := rfl
@[simp] theorem State.emit_pc (s : State) (v : Byte) : (s.emit v).pc = s.pc := rfl
@[simp] theorem State.emit_ir (s : State) (v : Byte) : (s.emit v).ir = s.ir := rfl
@[simp] theorem State.emit_status (s : State) (v : Byte) : (s.emit v).status = s.status := rfl
@[simp] theorem State.emit_output (s : State) (v : Byte) : (s.emit v).output = s.output ++ [v] := rfl
@[simp] theorem State.emit_mem (s : State) (v : Byte) : (s.emit v).mem = s.mem := rfl

/-! ### writeMem -/

@[simp] theorem State.writeMem_cfg (s : State) (a : Nat) (v : Byte) : (s.writeMem a v).cfg = s.cfg := rfl
@[simp] theorem State.writeMem_regs (s : State) (a : Nat) (v : Byte) : (s.writeMem a v).regs = s.regs := rfl
@[simp] theorem State.writeMem_pc (s : State) (a : Nat) (v : Byte) : (s.writeMem a v).pc = s.pc := rfl
@[simp] theorem State.writeMem_ir (s : State) (a : Nat) (v : Byte) : (s.writeMem a v).ir = s.ir := rfl
@[simp] theorem State.writeMem_status (s : State) (a : Nat) (v : Byte) : (s.writeMem a v).status = s.status := rfl
@[simp] theorem State.writeMem_output (s : State) (a : Nat) (v : Byte) : (s.writeMem a v).output = s.output := rfl
@[simp] theorem State.writeMem_mem (s : State) (a : Nat) (v : Byte) : (s.writeMem a v).mem = s.mem.write a v := rfl

/-! ### halt -/

@[simp] theorem State.halt_cfg (s : State) (c : HaltCause) : (s.halt c).cfg = s.cfg := rfl
@[simp] theorem State.halt_regs (s : State) (c : HaltCause) : (s.halt c).regs = s.regs := rfl
@[simp] theorem State.halt_pc (s : State) (c : HaltCause) : (s.halt c).pc = s.pc := rfl
@[simp] theorem State.halt_ir (s : State) (c : HaltCause) : (s.halt c).ir = s.ir := rfl
@[simp] theorem State.halt_status (s : State) (c : HaltCause) : (s.halt c).status = .halted c := rfl
@[simp] theorem State.halt_output (s : State) (c : HaltCause) : (s.halt c).output = s.output := rfl
@[simp] theorem State.halt_mem (s : State) (c : HaltCause) : (s.halt c).mem = s.mem := rfl

/-! ### raised -/

@[simp] theorem State.raised_cfg (s : State) (f : FaultInfo) : (s.raised f).cfg = s.cfg := rfl
@[simp] theorem State.raised_regs (s : State) (f : FaultInfo) : (s.raised f).regs = s.regs := rfl
@[simp] theorem State.raised_pc (s : State) (f : FaultInfo) : (s.raised f).pc = s.pc := rfl
@[simp] theorem State.raised_ir (s : State) (f : FaultInfo) : (s.raised f).ir = s.ir := rfl
@[simp] theorem State.raised_status (s : State) (f : FaultInfo) : (s.raised f).status = .halted (.fault { addr := s.pc, info := f }) := rfl
@[simp] theorem State.raised_output (s : State) (f : FaultInfo) : (s.raised f).output = s.output := rfl
@[simp] theorem State.raised_mem (s : State) (f : FaultInfo) : (s.raised f).mem = s.mem := rfl

/-! ### pushed -/

@[simp] theorem State.pushed_cfg (s : State) (v : Byte) (f : State → Byte) : (s.pushed v f).cfg = s.cfg := rfl
@[simp] theorem State.pushed_regs (s : State) (v : Byte) (f : State → Byte) : (s.pushed v f).regs = s.regs.set s.cfg.spIndex.val v := rfl
@[simp] theorem State.pushed_pc (s : State) (v : Byte) (f : State → Byte) : (s.pushed v f).pc = s.pc := rfl
@[simp] theorem State.pushed_ir (s : State) (v : Byte) (f : State → Byte) : (s.pushed v f).ir = s.ir := rfl
@[simp] theorem State.pushed_status (s : State) (v : Byte) (f : State → Byte) : (s.pushed v f).status = s.status := rfl
@[simp] theorem State.pushed_output (s : State) (v : Byte) (f : State → Byte) : (s.pushed v f).output = s.output := rfl
@[simp] theorem State.pushed_mem (s : State) (v : Byte) (f : State → Byte) : (s.pushed v f).mem = s.mem.write v.toNat (f (s.setSp v)) := rfl

/-! ### Reading registers -/

theorem State.readReg_eq (s : State) (i : Fin 8) : s.readReg i = s.regs[i.val] := rfl

/-- A state that keeps the register file keeps every register. -/
theorem State.readReg_congr {s t : State} (h : t.regs = s.regs) (i : Fin 8) : t.readReg i = s.readReg i := by
  simp [State.readReg, h]

@[simp] theorem State.readReg_writeReg_same (s : State) (i : Fin 8) (v : Byte) : (s.writeReg i v).readReg i = v := by
  simp [State.readReg]

theorem State.readReg_writeReg_ne (s : State) {i j : Fin 8} (v : Byte) (h : j ≠ i) :
    (s.writeReg i v).readReg j = s.readReg j := by
  have : i.val ≠ j.val := fun e => h (Fin.ext e.symm)
  simp [State.readReg, this]

@[simp] theorem State.readReg_setPc (s : State) (t : Nat) (i : Fin 8) : (s.setPc t).readReg i = s.readReg i := rfl
@[simp] theorem State.readReg_latchIr (s : State) (v : Byte) (i : Fin 8) : (s.latchIr v).readReg i = s.readReg i := rfl
@[simp] theorem State.readReg_emit (s : State) (v : Byte) (i : Fin 8) : (s.emit v).readReg i = s.readReg i := rfl
@[simp] theorem State.readReg_writeMem (s : State) (a : Nat) (v : Byte) (i : Fin 8) :
    (s.writeMem a v).readReg i = s.readReg i := rfl
@[simp] theorem State.readReg_halt (s : State) (c : HaltCause) (i : Fin 8) : (s.halt c).readReg i = s.readReg i := rfl
@[simp] theorem State.readReg_raised (s : State) (f : FaultInfo) (i : Fin 8) :
    (s.raised f).readReg i = s.readReg i := rfl
@[simp] theorem State.readReg_pushed (s : State) (v : Byte) (f : State → Byte) (i : Fin 8) :
    (s.pushed v f).readReg i = (s.setSp v).readReg i := rfl

/-! ### The stack pointer is one of the registers (10_state.md R22) -/

theorem State.setSp_eq (s : State) (v : Byte) : s.setSp v = s.writeReg s.cfg.spIndex v := rfl
theorem State.sp_eq (s : State) : s.sp = s.readReg s.cfg.spIndex := rfl

@[simp] theorem State.sp_setSp (s : State) (v : Byte) : (s.setSp v).sp = v := by
  simp [State.sp, State.setSp_eq]

theorem State.readReg_setSp_ne (s : State) (v : Byte) {i : Fin 8} (h : i ≠ s.cfg.spIndex) :
    (s.setSp v).readReg i = s.readReg i :=
  State.readReg_writeReg_ne s v h

@[simp] theorem State.readReg_setSp_same (s : State) (v : Byte) : (s.setSp v).readReg s.cfg.spIndex = v :=
  State.readReg_writeReg_same s _ v

@[simp] theorem State.sp_setPc (s : State) (t : Nat) : (s.setPc t).sp = s.sp := rfl
@[simp] theorem State.sp_latchIr (s : State) (v : Byte) : (s.latchIr v).sp = s.sp := rfl
@[simp] theorem State.sp_emit (s : State) (v : Byte) : (s.emit v).sp = s.sp := rfl
@[simp] theorem State.sp_writeMem (s : State) (a : Nat) (v : Byte) : (s.writeMem a v).sp = s.sp := rfl
@[simp] theorem State.sp_halt (s : State) (c : HaltCause) : (s.halt c).sp = s.sp := rfl
@[simp] theorem State.sp_raised (s : State) (f : FaultInfo) : (s.raised f).sp = s.sp := rfl
@[simp] theorem State.sp_pushed (s : State) (v : Byte) (f : State → Byte) : (s.pushed v f).sp = v :=
  State.sp_setSp s v

theorem State.sp_writeReg_ne (s : State) {i : Fin 8} (v : Byte) (h : i ≠ s.cfg.spIndex) : (s.writeReg i v).sp = s.sp :=
  State.readReg_writeReg_ne s v (Ne.symm h)

@[simp] theorem State.sp_writeReg_same (s : State) (v : Byte) : (s.writeReg s.cfg.spIndex v).sp = v :=
  State.readReg_writeReg_same s _ v

/-- The record a raised fault leaves holds the kind and the code of its detail (10_state.md R29). -/
theorem FaultRecord.code_eq (f : FaultRecord) : f.code = f.info.kind.code := rfl

end Sys2Proof.Machine
end

