-- ==== Sys2Proof/Laws/Ops.lean ====
section
/-! SUPPORT. What each shared operation can do, said once: a proof about an instruction cites these and does not unfold
the operation. -/

namespace Sys2Proof.Machine

/-! ### Register operands -/

theorem regByte_toNat (i : Fin 8) : (regByte i).toNat = i.val := by
  simp [regByte]; omega

@[simp] theorem regIndex_regByte (i : Fin 8) : regIndex (regByte i) = some i := by
  have h := regByte_toNat i
  simp [regIndex, h]

theorem regIndex_eq_some {b : Byte} {i : Fin 8} (h : regIndex b = some i) : b = regByte i := by
  unfold regIndex at h
  split at h
  · cases h
    exact BitVec.eq_of_toNat_eq (by simp [regByte_toNat])
  · cases h

theorem regIndex_eq_none_iff (b : Byte) : regIndex b = none ↔ 7 < b.toNat := by
  unfold regIndex
  split <;> simp <;> omega

@[simp] theorem withReg_regByte (s : State) (i : Fin 8) (k : Position) (go : Fin 8 → Answer) :
    withReg s (regByte i) k go = go i := by
  simp [withReg]

theorem withReg_of_gt {s : State} {b : Byte} {k : Position} {go : Fin 8 → Answer} (h : 7 < b.toNat) :
    withReg s b k go = raise s (.invalidRegister b k) := by
  simp [withReg, (regIndex_eq_none_iff b).2 h]

/-- `withReg` goes on with the register the byte names, or raises InvalidRegister. -/
theorem withReg_cases (s : State) (b : Byte) (k : Position) (go : Fin 8 → Answer) :
    (∃ i, b = regByte i ∧ withReg s b k go = go i) ∨
      (7 < b.toNat ∧ withReg s b k go = raise s (.invalidRegister b k)) := by
  cases h : regIndex b with
  | some i => exact .inl ⟨i, regIndex_eq_some h, by simp [withReg, h]⟩
  | none => exact .inr ⟨(regIndex_eq_none_iff b).1 h, by simp [withReg, h]⟩

/-! ### Memory and stack checks -/

theorem withinMemory_of_lt {s : State} {a : Nat} {k : AccessKind} {go : Answer} (h : a < s.cfg.memSize) :
    withinMemory s a k go = go := if_pos h

theorem withinMemory_of_ge {s : State} {a : Nat} {k : AccessKind} {go : Answer} (h : s.cfg.memSize ≤ a) :
    withinMemory s a k go = raise s (.outOfBounds a k) := if_neg (Nat.not_lt.2 h)

/-- `withinMemory` goes on inside memory, or raises OutOfBounds. -/
theorem withinMemory_cases (s : State) (a : Nat) (k : AccessKind) (go : Answer) :
    (a < s.cfg.memSize ∧ withinMemory s a k go = go) ∨
      (s.cfg.memSize ≤ a ∧ withinMemory s a k go = raise s (.outOfBounds a k)) := by
  by_cases h : a < s.cfg.memSize
  · exact .inl ⟨h, withinMemory_of_lt h⟩
  · exact .inr ⟨Nat.not_lt.1 h, withinMemory_of_ge (Nat.not_lt.1 h)⟩

theorem withStackRoom_of_overflow {s : State} {go : Byte → Answer} (hc : s.cfg.stackCheck = .fault) (h0 : s.sp = 0) :
    withStackRoom s go = raise s (.stackOverflow s.sp) := if_pos ⟨hc, h0⟩

theorem withStackRoom_of_room {s : State} {go : Byte → Answer} (h : s.cfg.stackCheck = .wrap ∨ s.sp ≠ 0) :
    withStackRoom s go = go (s.sp - 1) := by
  refine if_neg fun ⟨hc, h0⟩ => ?_
  rcases h with h | h
  · rw [h] at hc; cases hc
  · exact h h0

/-- `withStackRoom` goes on with the decremented SP, or raises StackOverflow. -/
theorem withStackRoom_cases (s : State) (go : Byte → Answer) :
    ((s.cfg.stackCheck = .wrap ∨ s.sp ≠ 0) ∧ withStackRoom s go = go (s.sp - 1)) ∨
      ((s.cfg.stackCheck = .fault ∧ s.sp = 0) ∧ withStackRoom s go = raise s (.stackOverflow s.sp)) := by
  by_cases h : s.cfg.stackCheck = .fault ∧ s.sp = 0
  · exact .inr ⟨h, if_pos h⟩
  · refine .inl ⟨?_, if_neg h⟩
    cases hc : s.cfg.stackCheck
    · exact .inr fun h0 => h ⟨hc, h0⟩
    · exact .inl rfl

theorem withStackTop_of_item {s : State} {go : Byte → Answer} (h : s.cfg.stackCheck = .wrap ∨ s.sp.toNat < s.cfg.spInit.toNat)
    (hm : s.sp.toNat < s.cfg.memSize) : withStackTop s go = go (s.mem.read s.sp.toNat) := by
  unfold withStackTop
  rw [if_neg, withinMemory_of_lt hm]
  rintro ⟨hc, hle⟩
  rcases h with h | h
  · rw [h] at hc; cases hc
  · exact absurd (BitVec.le_def.1 hle) (Nat.not_le.2 h)

/-- `withStackTop` goes on with the byte at SP, or raises StackUnderflow, or raises OutOfBounds for the read. -/
theorem withStackTop_cases (s : State) (go : Byte → Answer) :
    ((s.cfg.stackCheck = .wrap ∨ s.sp.toNat < s.cfg.spInit.toNat) ∧ s.sp.toNat < s.cfg.memSize ∧
        withStackTop s go = go (s.mem.read s.sp.toNat)) ∨
      ((s.cfg.stackCheck = .fault ∧ s.cfg.spInit.toNat ≤ s.sp.toNat) ∧
        withStackTop s go = raise s (.stackUnderflow s.sp)) ∨
      ((s.cfg.stackCheck = .wrap ∨ s.sp.toNat < s.cfg.spInit.toNat) ∧ s.cfg.memSize ≤ s.sp.toNat ∧
        withStackTop s go = raise s (.outOfBounds s.sp.toNat .dataRead)) := by
  by_cases h : s.cfg.stackCheck = .fault ∧ s.cfg.spInit ≤ s.sp
  · exact .inr (.inl ⟨⟨h.1, BitVec.le_def.1 h.2⟩, if_pos h⟩)
  · have hs : s.cfg.stackCheck = .wrap ∨ s.sp.toNat < s.cfg.spInit.toNat := by
      cases hc : s.cfg.stackCheck
      · exact .inr (Nat.not_le.1 fun hle => h ⟨hc, BitVec.le_def.2 hle⟩)
      · exact .inl rfl
    have e : withStackTop s go = withinMemory s s.sp.toNat .dataRead (go (s.mem.read s.sp.toNat)) := if_neg h
    rcases withinMemory_cases s s.sp.toNat .dataRead (go (s.mem.read s.sp.toNat)) with ⟨hm, hw⟩ | ⟨hm, hw⟩
    · exact .inl ⟨hs, hm, e.trans hw⟩
    · exact .inr (.inr ⟨hs, hm, e.trans hw⟩)

/-- `withReturnByte` goes on with the return address as a byte, or raises ReturnAddressUnrepresentable. -/
theorem withReturnByte_cases (s : State) (n : Nat) (go : Byte → Answer) :
    (n ≤ 255 ∧ withReturnByte s n go = go (BitVec.ofNat 8 n)) ∨
      (255 < n ∧ withReturnByte s n go = raise s (.returnAddressUnrepresentable n)) := by
  by_cases h : 255 < n
  · exact .inr ⟨h, if_pos h⟩
  · exact .inl ⟨Nat.not_lt.1 h, if_neg h⟩

/-! ### The ALU -/

@[simp] theorem withAlu_mul (a b : Byte) (go : Byte → Answer) : withAlu .mul a b go = go (a * b) := by
  have h : BitVec.ofNat 8 ((a.toNat * b.toNat) % 256) = a * b := BitVec.eq_of_toNat_eq (by simp)
  simp [withAlu, aluApply, h]

/-! ### Fetch and step -/

/-- What fetch and decode can do, one case per decoder answer. -/
theorem fetchDecode_cases (s : State) :
    (∃ i rest, decode s.cfg s.window = .ok (i, rest) ∧ fetchDecode s = .execute i (s.latchIr (s.mem.read s.pc))) ∨
      (decode s.cfg s.window = .error .noOpcode ∧ fetchDecode s = .stop (s.raised (.outOfBounds s.pc .fetch))) ∨
      (∃ op, decode s.cfg s.window = .error (.invalidOpcode op) ∧
        fetchDecode s = .stop ((s.latchIr (s.mem.read s.pc)).raised (.invalidOpcode op))) ∨
      (∃ k, decode s.cfg s.window = .error (.missingOperand k) ∧
        fetchDecode s = .stop ((s.latchIr (s.mem.read s.pc)).raised (.outOfBounds (s.pc + k.offset) .operand))) := by
  unfold fetchDecode
  rcases decode s.cfg s.window with e | ⟨i, rest⟩
  · cases e with
    | noOpcode => exact .inr (.inl ⟨rfl, rfl⟩)
    | invalidOpcode op => exact .inr (.inr (.inl ⟨op, rfl, rfl⟩))
    | missingOperand k => exact .inr (.inr (.inr ⟨k, rfl, rfl⟩))
  · exact .inl ⟨i, rest, rfl, rfl⟩

/-- A step of a RUNNING engine under a legal configuration is its cycle. -/
theorem step_running {s : State} (hw : s.cfg.wf = true) (hr : s.status = .running) :
    step s = match fetchDecode s with
      | .execute i s1 => exec i s1
      | .stop s1 => .next s1 := by
  unfold step
  rewrite [if_pos hw, hr]
  rfl

/-- A step of a HALTED engine under a legal configuration changes nothing. -/
theorem step_halted {s : State} {c : HaltCause} (hw : s.cfg.wf = true) (hs : s.status = .halted c) :
    step s = .next s := by
  unfold step
  rw [if_pos hw, hs]

/-- The requests of a RUNNING engine's cycle. -/
theorem State.requests_running {s : State} (hr : s.status = .running) :
    s.requests = fetchRequests s ++
      match fetchDecode s with
      | .execute i s1 => if completed (exec i s1) then dataAccess i s1 else []
      | .stop _ => [] := by
  unfold State.requests
  rewrite [hr]
  rfl

/-- What a step can do: refuse an illegal configuration, stay HALTED, execute the fetched instruction, or take the
fault of the fetch. -/
theorem step_cases (s : State) :
    (s.cfg.wf = false ∧ step s = .refused .illFormedConfiguration) ∨
      (s.cfg.wf = true ∧ (∃ c, s.status = .halted c) ∧ step s = .next s) ∨
      (s.cfg.wf = true ∧ s.status = .running ∧
        ((∃ i s1, fetchDecode s = .execute i s1 ∧ step s = exec i s1) ∨
          ∃ t, fetchDecode s = .stop t ∧ step s = .next t)) := by
  unfold step
  cases hw : s.cfg.wf
  · exact .inl ⟨rfl, rfl⟩
  · cases hs : s.status with
    | halted c => exact .inr (.inl ⟨rfl, ⟨c, rfl⟩, rfl⟩)
    | running =>
      refine .inr (.inr ⟨rfl, rfl, ?_⟩)
      cases fetchDecode s with
      | execute i s1 => exact .inl ⟨i, s1, rfl, rfl⟩
      | stop t => exact .inr ⟨t, rfl, rfl⟩

end Sys2Proof.Machine
end

