-- ==== Sys2Proof/Laws/PerInstr.lean ====
section
/-! SUPPORT. Statements about the instructions as syntax, one lemma per constructor. -/

namespace Sys2Proof.Laws.Layout

/-- The layout of an instruction: its first byte is its mnemonic's opcode, and its length is the one its opcode fixes
(30_encoding.md R61, R64). -/
def Statement (i : Instr) : Prop :=
  ∀ opc : Opc, (encode opc i).head? = some (opcodeOf opc i.mnemonic) ∧ (encode opc i).length = i.length

theorem hlt : Statement .hlt := fun _ => ⟨rfl, rfl⟩
theorem ldi (r imm : Byte) : Statement (.ldi r imm) := fun _ => ⟨rfl, rfl⟩
theorem mul (rA rB : Byte) : Statement (.mul rA rB) := fun _ => ⟨rfl, rfl⟩
theorem prn (r : Byte) : Statement (.prn r) := fun _ => ⟨rfl, rfl⟩
theorem push (r : Byte) : Statement (.push r) := fun _ => ⟨rfl, rfl⟩
theorem pop (r : Byte) : Statement (.pop r) := fun _ => ⟨rfl, rfl⟩
theorem call (r : Byte) : Statement (.call r) := fun _ => ⟨rfl, rfl⟩
theorem ret : Statement .ret := fun _ => ⟨rfl, rfl⟩
theorem jmp (r : Byte) : Statement (.jmp r) := fun _ => ⟨rfl, rfl⟩

end Sys2Proof.Laws.Layout
end

