-- ==== Sys2Proof/Laws/Run.lean ====
section
/-! SUPPORT. How a run unfolds, one step at a time (40_fetch_decode_execute.md R88). -/

namespace Sys2Proof.Machine

theorem core_run_zero (s : State) : core.run 0 s = .next s := rfl

theorem core_run_next {s t : State} (n : Nat) (h : step s = .next t) : core.run (n + 1) s = core.run n t := by
  simp only [Host.Core.run, show core.step s = .next t from h]

theorem core_run_refused {s : State} {why : Refusal} (n : Nat) (h : step s = .refused why) :
    core.run (n + 1) s = .refused why := by
  simp only [Host.Core.run, show core.step s = .refused why from h]

end Sys2Proof.Machine
end

