-- ==== Sys2Proof/Tests/Slice0.lean ====
section
/-! SUPPORT. Tests of the model: the well-formedness checks, one decoded word per constructor, single steps from
spec/95_test_vectors.md, and a witness for the hypotheses of every statement. -/

namespace Sys2Proof.Tests
open Sys2Proof Sys2Proof.Machine

/-! ### Helpers -/

/-- The reset state with bytes placed from `pc` up, at that `pc`. -/
def at_ (pc : Nat) (bytes : List Byte) : State :=
  { State.reset with pc := pc, mem := Memory.load [] pc bytes }

/-- Another STACK_CHECK. -/
def wrapping (s : State) : State := { s with cfg := { s.cfg with stackCheck := .wrap } }

/-- Another MEM_SIZE. -/
def sized (n : Nat) (s : State) : State := { s with cfg := { s.cfg with memSize := n } }

/-- RET_JMP = Implement. -/
def withRetJmp (s : State) : State := { s with cfg := { s.cfg with retJmp := .implemented } }

/-- The next state, if the answer is one. -/
def after : Answer → Option State
  | .next t => some t
  | .fault _ => none
  | .refused _ => none

/-- The fault record after a step. -/
def faultAfter (s : State) : Option FaultRecord := (after (step s)).bind State.faultPort

/-! ### Well-formedness (30_encoding.md R62; 00_scope.md R5) -/

theorem test_wf_ldi : Instr.wellFormed (.ldi 8 0) = false ∧ Instr.wellFormed (.ldi 7 255) = true := by decide
theorem test_wf_mul : Instr.wellFormed (.mul 8 0) = false ∧ Instr.wellFormed (.mul 0 8) = false ∧
    Instr.wellFormed (.mul 7 7) = true := by decide
theorem test_wf_one_operand : Instr.wellFormed (.prn 8) = false ∧ Instr.wellFormed (.push 8) = false ∧
    Instr.wellFormed (.pop 8) = false ∧ Instr.wellFormed (.call 8) = false ∧ Instr.wellFormed (.jmp 8) = false := by decide
theorem test_config_needs_memory : Config.wf { Config.default with memSize := 0 } = false := by decide
theorem test_config_needs_distinct_opcodes :
    Config.wf { Config.default with opc := { Opc.ls8 with pop := 0x45 } } = false := by decide
/-- RET's byte is part of the map only under Implement (00_scope.md R5). -/
theorem test_config_ret_counts_only_when_present :
    Config.wf { Config.default with opc := { Opc.ls8 with ret := 0x45 } } = true ∧
    Config.wf { tableConfig with opc := { Opc.ls8 with ret := 0x45 } } = false := by decide
theorem test_config_default_legal : Config.default.wf = true ∧ tableConfig.wf = true := by decide
/-- An illegal configuration is refused. -/
theorem test_illegal_configuration_refused :
    (match step (sized 0 State.reset) with
      | .refused .illFormedConfiguration => true
      | _ => false) = true := by decide

/-! ### Decoding: a word per constructor, written out from the "encoding" column of the opcode table -/

theorem test_decode_hlt : decodeTableWord 8 0b00000001 = some .hlt := by decide
theorem test_decode_ldi : decodeTableWord 24 0b11111111_00000110_10000010 = some (.ldi 6 255) := by decide
theorem test_decode_mul : decodeTableWord 24 0b00000101_00000011_10100010 = some (.mul 3 5) := by decide
theorem test_decode_prn : decodeTableWord 16 0b00000100_01000111 = some (.prn 4) := by decide
theorem test_decode_push : decodeTableWord 16 0b00000111_01000101 = some (.push 7) := by decide
theorem test_decode_pop : decodeTableWord 16 0b10000000_01000110 = some (.pop 128) := by decide
theorem test_decode_call : decodeTableWord 16 0b00000010_01010000 = some (.call 2) := by decide
theorem test_decode_ret : decodeTableWord 8 0b00010001 = some .ret := by decide
theorem test_decode_jmp : decodeTableWord 16 0b00000110_01010100 = some (.jmp 6) := by decide
/-- A table word without its operand bits has operands of 0. -/
theorem test_decode_short_word : decodeTableWord 8 0x82 = some (.ldi 0 0) := by decide
/-- An unmapped byte (30_encoding.md R68), and RET's byte under Omit (95_test_vectors.md F5). -/
theorem test_decode_unmapped : decodeTableWord 8 0x00 = none ∧ lookup Config.default 0x11 = none := by decide
/-- 249 bytes are illegal under Omit and 247 under Implement (30_encoding.md R68). -/
theorem test_illegal_byte_counts :
    ((List.range 256).filter fun n => (lookup Config.default (BitVec.ofNat 8 n)).isNone).length = 249 ∧
    ((List.range 256).filter fun n => (lookup tableConfig (BitVec.ofNat 8 n)).isNone).length = 247 := by decide +kernel

/-! ### Placing a word -/

theorem test_withFetchWord_runs_ldi :
    (after (step (State.reset.withFetchWord 24 0x7B0382))).map (fun t => (t.readReg 3, t.pc)) = some (123, 3) := by decide
/-- RET runs, under Implement, and finds the stack empty (95_test_vectors.md, vector R2). -/
theorem test_withFetchWord_runs_ret :
    faultAfter (State.reset.withFetchWord 8 0x11) = some ⟨0, .stackUnderflow 0xF8⟩ := by decide
/-- JMP R0 runs, under Implement: x[0] is 0. -/
theorem test_withFetchWord_runs_jmp :
    (after (step (State.reset.withFetchWord 16 0x54))).map (fun t => (t.isRunning, t.ir, t.pc)) = some (true, 0x54, 0) := by
  decide

/-! ### Steps from spec/95_test_vectors.md -/

/-- F1. -/
theorem test_F1 : (after (step ((at_ 256 []).latchIr 0x47))).map (fun t => (t.faultPort, t.ir, t.pc)) =
    some (some ⟨256, .outOfBounds 256 .fetch⟩, 0x47, 256) := by decide
/-- F2. -/
theorem test_F2 : (after (step (at_ 8 [0x00]))).map (fun t => (t.faultPort, t.ir, t.pc)) =
    some (some ⟨8, .invalidOpcode 0x00⟩, 0x00, 8) := by decide
/-- F6. -/
theorem test_F6 : faultAfter (at_ 3 [0x54, 0x00]) = some ⟨3, .invalidOpcode 0x54⟩ := by decide
/-- F4. -/
theorem test_F4 : after (step ((at_ 11 [0x01]).halt .hlt)) = some ((at_ 11 [0x01]).halt .hlt) := by decide
/-- H2. -/
theorem test_H2 : (after (step (at_ 255 [0x01]))).map (fun t => (t.haltCause, t.pc, t.ir)) =
    some (some .hlt, 255, 0x01) := by decide
/-- L6: the operand fault, not the register fault. -/
theorem test_L6 : faultAfter (at_ 254 [0x82, 0x09]) = some ⟨254, .outOfBounds 256 .operand⟩ := by decide
/-- L7. -/
theorem test_L7 : (after (step (at_ 253 [0x82, 0x00, 0x05]))).map (fun t => (t.readReg 0, t.pc)) = some (5, 256) := by decide
/-- M2: 200 * 200. -/
theorem test_M2 : (after (step (((at_ 0 [0xA2, 0x00, 0x01]).writeReg 0 200).writeReg 1 200))).map
    (fun t => (t.readReg 0, t.readReg 1)) = some (64, 200) := by decide
/-- M8. -/
theorem test_M8 : faultAfter (at_ 0 [0xA2, 0x00, 0x09]) = some ⟨0, .invalidRegister 9 .second⟩ := by decide
/-- N4. -/
theorem test_N4 : (after (step (((at_ 0 [0x47, 0x00]).writeReg 0 255).emit 1))).map
    (fun t => (t.output, t.renderedOutput)) = some ([1, 255], [['1'], ['2', '5', '5']]) := by decide
/-- N2. -/
theorem test_N2 : (after (step (at_ 0 [0x47, 0x07]))).map (fun t => (t.output, t.pc)) = some ([248], 2) := by decide
/-- U2: PUSH R7. -/
theorem test_U2 : (after (step (at_ 0 [0x45, 0x07]))).map (fun t => (t.sp, t.mem.read 0xF7)) = some (0xF7, 0xF7) := by decide
/-- U6: OutOfBounds under Wrap, MEM_SIZE = 200. -/
theorem test_U6 : faultAfter (wrapping (sized 200 ((at_ 5 [0x45, 0x00]).setSp 0))) =
    some ⟨5, .outOfBounds 255 .dataWrite⟩ := by decide
/-- Q4: POP R7. -/
theorem test_Q4 : (after (step (((at_ 0 [0x46, 0x07]).setSp 0xF7).writeMem 0xF7 0x20))).map (fun t => (t.sp, t.pc)) =
    some (0x21, 2) := by decide
/-- Q6. -/
theorem test_Q6 : faultAfter ((at_ 4 [0x46, 0x00]).setSp 0xFA) = some ⟨4, .stackUnderflow 0xFA⟩ := by decide
/-- C1, the source's example. -/
theorem test_C1 : (after (step (((at_ 10 [0x50, 0x00]).writeReg 0 5).writeMem 5 0x01))).map
    (fun t => (t.sp, t.mem.read 0xF7, t.pc)) = some (0xF7, 12, 5) := by decide
/-- C3. -/
theorem test_C3 : faultAfter (at_ 254 [0x50, 0x00]) = some ⟨254, .returnAddressUnrepresentable 256⟩ := by decide
/-- R1. -/
theorem test_R1 : (after (step (withRetJmp (((at_ 5 [0x11]).setSp 0xF7).writeMem 0xF7 12)))).map (fun t => (t.sp, t.pc)) =
    some (0xF8, 12) := by decide
/-- R3. -/
theorem test_R3 : (after (step (wrapping (withRetJmp (((at_ 5 [0x11]).setSp 0xFF).writeMem 0xFF 0x30))))).map
    (fun t => (t.sp, t.pc)) = some (0x00, 0x30) := by decide
/-- J1. -/
theorem test_J1 : (after (step (withRetJmp ((at_ 4 [0x54, 0x02]).writeReg 2 0x20)))).map (fun t => (t.sp, t.pc)) =
    some (0xF8, 0x20) := by decide
/-- J3. -/
theorem test_J3 : faultAfter (withRetJmp (at_ 4 [0x54, 0x08])) = some ⟨4, .invalidRegister 8 .first⟩ := by decide
/-- The requests of a PUSH, in order (20_memory.md R43). -/
theorem test_push_requests : (at_ 6 [0x45, 0x00]).requests =
    [.read 6 .fetch, .read 7 .operand, .write 0xF7 0] := by decide
/-- Fault codes of the table (60_exceptions.md R170). -/
theorem test_fault_code : ((faultAfter (at_ 254 [0x50, 0x00])).map FaultRecord.code) = some 6 := by decide
/-- `CALL 0` and `PUSH SP` (30_encoding.md R71), and a register above 7. -/
theorem test_assembler_forms :
    assemble Config.default ['C', 'A', 'L', 'L', ' ', '0'] = some [0x50, 0x00] ∧
    assemble Config.default ['P', 'U', 'S', 'H', ' ', 'S', 'P'] = some [0x45, 0x07] ∧
    assemble Config.default ['P', 'R', 'N', ' ', 'R', '8'] = none ∧
    assemble Config.default ['R', 'E', 'T'] = none := by decide

/-! ### Witnesses: for each statement, states and operands that meet its hypotheses, at the ends of their ranges -/

theorem witness_DecodeEncodeRoundTrip :
    tableConfig.wf = true ∧ (Instr.ldi 255 255).present tableConfig = true ∧ Instr.ret.present tableConfig = true ∧
      (Instr.hlt).present Config.default = true := by decide

theorem witness_DecodedBytesAreTheEncoding :
    decode Config.default [0x82, 0xFF, 0xFF, 0x00] = .ok (.ldi 0xFF 0xFF, [0x00]) := rfl

theorem witness_LookupIsExactOpcodeMatch :
    Config.default.wf = true ∧ State.reset.cfg = Config.default ∧ ∃ t, step (at_ 255 [0x01]) = .next t :=
  ⟨by decide, rfl, ⟨_, rfl⟩⟩

/-- Under Omit with RET and with JMP, and under Implement with RET at the last address and with JMP's operand there. -/
theorem witness_RetJmpParameterSelects :
    (∀ s ∈ [at_ 255 [0x11], withRetJmp (at_ 255 [0x11])],
      ({ s.cfg with retJmp := .implemented } : Config).wf = true ∧ s.status = .running ∧ s.pc < s.cfg.memSize ∧
        s.mem.read s.pc = opcodeOf s.cfg.opc .ret) ∧
    (∀ s ∈ [at_ 254 [0x54, 0x07], withRetJmp (at_ 254 [0x54, 0x07])],
      ({ s.cfg with retJmp := .implemented } : Config).wf = true ∧ s.status = .running ∧ s.pc < s.cfg.memSize ∧
        s.mem.read s.pc = opcodeOf s.cfg.opc .jmp ∧ s.pc + 1 < s.cfg.memSize) ∧
    (at_ 255 [0x11]).cfg.retJmp = .omitted ∧ (withRetJmp (at_ 255 [0x11])).cfg.retJmp = .implemented := by decide

/-- LDI in the last three bytes of memory. -/
theorem witness_StepRunsTheDecodedInstruction :
    let s := at_ 253 [0x82, 0x00, 0x05]
    let i := Instr.ldi 0 5
    s.cfg.wf = true ∧ s.status = .running ∧ i.present s.cfg = true ∧ s.pc + i.length ≤ s.cfg.memSize ∧
      ∀ (k : Nat) (h : k < (encode s.cfg.opc i).length), s.mem.read (s.pc + k) = (encode s.cfg.opc i)[k] := by decide

theorem witness_HaltedEngineDoesNothing :
    (State.reset.halt .hlt).cfg.wf = true ∧ (State.reset.halt .hlt).status = .halted .hlt ∧
      (State.reset.raised (.stackOverflow 0)).status = .halted (.fault ⟨0, .stackOverflow 0⟩) := by decide

/-- RUNNING with a completion, with HLT and with a fault; and HALTED. -/
theorem witness_ControlStateMachineTransitions :
    (at_ 255 [0x01]).cfg.wf = true ∧ (at_ 255 [0x01]).status = .running ∧ (at_ 255 [0x01]).cycleFault = none ∧
    (at_ 0 [0x47, 0x07]).cycleFault = none ∧ (at_ 0 [0x47, 0x07]).mem.read 0 ≠ Config.default.opc.hlt ∧
    (at_ 0 [0x47, 0x08]).cycleFault = some (.invalidRegister 8 .first) ∧
    (State.reset.halt .hlt).status = .halted .hlt := by decide

theorem witness_FetchLatchesTheOpcodeOrFaults :
    (at_ 256 []).cfg.wf = true ∧ (at_ 256 []).status = .running ∧ (at_ 256 []).cfg.memSize ≤ (at_ 256 []).pc ∧
      (at_ 255 []).pc < (at_ 255 []).cfg.memSize := by decide

theorem witness_InvalidOpcodeHaltsTheEngine :
    let s := at_ 255 [0x00]
    s.cfg.wf = true ∧ s.status = .running ∧ s.pc < s.cfg.memSize ∧ lookup s.cfg (s.mem.read s.pc) = none := by decide

/-- PRN at the last address; LDI at the last address and one before it. -/
theorem witness_OperandBeyondMemoryFaults :
    (let s := at_ 255 [0x47]
     s.cfg.wf = true ∧ s.status = .running ∧ s.pc < s.cfg.memSize ∧ lookup s.cfg (s.mem.read s.pc) = some .prn ∧
       1 ≤ operandCount .prn ∧ s.pc + 1 = s.cfg.memSize) ∧
    (let s := at_ 254 [0x82, 0x00]
     s.cfg.wf = true ∧ s.status = .running ∧ s.pc < s.cfg.memSize ∧ lookup s.cfg (s.mem.read s.pc) = some .ldi ∧
       2 ≤ operandCount .ldi ∧ s.pc + 2 = s.cfg.memSize) := by decide

theorem witness_HltCycleHaltsAtItsAddress :
    let s := at_ 255 [0x01]
    s.cfg.wf = true ∧ s.status = .running ∧ s.pc < s.cfg.memSize ∧ s.mem.read s.pc = s.cfg.opc.hlt ∧
      Memory.read [(0, 0x47), (255, 0x01)] s.pc = s.mem.read s.pc := by decide

/-- The lowest and the highest register, the latter being SP. For LdiCompletes, MulCompletes, PrnCompletes, JmpCompletes and
LdiThenPrnEmitsTheImmediate. -/
theorem witness_register_operands : (0 : Byte).toNat < 8 ∧ (7 : Byte).toNat < 8 := by decide

/-- Under Fault at SP = 1 and at reset; under Wrap at SP = 0. The register may be SP itself. -/
theorem witness_PushCompletes :
    (0 : Byte).toNat < 8 ∧ (7 : Byte).toNat < 8 ∧
    (let s := State.reset.setSp 1; s.sp ≠ 0 ∧ (s.sp - 1).toNat < s.cfg.memSize) ∧
    (let s := wrapping (State.reset.setSp 0); s.cfg.stackCheck = .wrap ∧ (s.sp - 1).toNat < s.cfg.memSize) := by decide

/-- Under Fault one below SP_INIT; under Wrap at SP = 255. -/
theorem witness_PopCompletes :
    (0 : Byte).toNat < 8 ∧ (0 : Byte).toNat ≠ State.reset.cfg.spIndex.val ∧
    (7 : Byte).toNat < 8 ∧ (7 : Byte).toNat = State.reset.cfg.spIndex.val ∧
    (let s := State.reset.setSp 0xF7; s.sp.toNat < s.cfg.spInit.toNat ∧ s.sp.toNat < s.cfg.memSize) ∧
    (let s := wrapping (State.reset.setSp 0xFF); s.cfg.stackCheck = .wrap ∧ s.sp.toNat < s.cfg.memSize) := by decide

/-- The return address 255 is the last that fits. -/
theorem witness_CallCompletes :
    (7 : Byte).toNat < 8 ∧
    (let s := at_ 253 [0x50, 0x07]; s.sp ≠ 0 ∧ s.pc + 2 ≤ 255 ∧ (s.sp - 1).toNat < s.cfg.memSize) ∧
    (let s := wrapping ((at_ 253 [0x50, 0x07]).setSp 0)
     s.cfg.stackCheck = .wrap ∧ s.pc + 2 ≤ 255 ∧ (s.sp - 1).toNat < s.cfg.memSize) := by decide

theorem witness_RetCompletes :
    (let s := State.reset.setSp 0xF7; s.sp.toNat < s.cfg.spInit.toNat ∧ s.sp.toNat < s.cfg.memSize) ∧
    (let s := wrapping (State.reset.setSp 0xFF); s.cfg.stackCheck = .wrap ∧ s.sp.toNat < s.cfg.memSize) := by decide

/-- Each instruction answers a next state: by completing, and by faulting. -/
theorem witness_RegisterInstructionsFrame :
    (∃ t, exec .hlt State.reset = .next t) ∧ (∃ t, exec (.ldi 7 255) State.reset = .next t) ∧
    (∃ t, exec (.mul 7 0) State.reset = .next t) ∧ (∃ t, exec (.prn 7) State.reset = .next t) ∧
    (∃ t, exec (.jmp 7) State.reset = .next t) ∧ (∃ t, exec (.ldi 8 255) State.reset = .next t) :=
  ⟨⟨_, rfl⟩, ⟨_, rfl⟩, ⟨_, rfl⟩, ⟨_, rfl⟩, ⟨_, rfl⟩, ⟨_, rfl⟩⟩

theorem witness_PushingInstructionsFrame :
    (∃ t, exec (.push 7) State.reset = .next t) ∧ (∃ t, exec (.call 0) State.reset = .next t) ∧
    (∃ t, exec (.push 0) (State.reset.setSp 0) = .next t) :=
  ⟨⟨_, rfl⟩, ⟨_, rfl⟩, ⟨_, rfl⟩⟩

theorem witness_PoppingInstructionsFrame :
    (∃ t, exec (.pop 0) (State.reset.setSp 0xF7) = .next t) ∧ (∃ t, exec .ret (State.reset.setSp 0xF7) = .next t) ∧
    (∃ t, exec (.pop 7) (State.reset.setSp 0xF7) = .next t) ∧ (∃ t, exec .ret State.reset = .next t) :=
  ⟨⟨_, rfl⟩, ⟨_, rfl⟩, ⟨_, rfl⟩, ⟨_, rfl⟩⟩

theorem witness_RegisterOperandAboveSevenFaults :
    7 < (8 : Byte).toNat ∧ 7 < (255 : Byte).toNat ∧ (7 : Byte).toNat ≤ 7 := by decide

theorem witness_PushAtZeroOverflows :
    let s := State.reset.setSp 0
    (7 : Byte).toNat < 8 ∧ s.cfg.stackCheck = .fault ∧ s.sp = 0 := by decide

/-- At SP_INIT itself. -/
theorem witness_PopAtTheInitialBoundaryUnderflows :
    (7 : Byte).toNat < 8 ∧ State.reset.cfg.stackCheck = .fault ∧ State.reset.cfg.spInit.toNat ≤ State.reset.sp.toNat := by
  decide

theorem witness_StackFaultsOnlyUnderTheFaultPolicy :
    (State.reset.setSp 0).status = .running ∧
    (∃ t, exec (.push 0) (State.reset.setSp 0) = .next t ∧ t.status = .halted (.fault ⟨0, .stackOverflow 0⟩)) ∧
    ∃ t, exec .ret State.reset = .next t ∧ t.status = .halted (.fault ⟨0, .stackUnderflow 0xF8⟩) :=
  ⟨rfl, ⟨_, rfl, rfl⟩, ⟨_, rfl, rfl⟩⟩

/-- 254 is the first address at which CALL's return address does not fit. -/
theorem witness_CallAboveByteRangeFaults :
    let s := at_ 254 [0x50, 0x00]
    (0 : Byte).toNat < 8 ∧ s.sp ≠ 0 ∧ 255 < s.pc + 2 := by decide

/-- The new SP, and the SP read, equal to MEM_SIZE. -/
theorem witness_StackAccessBeyondMemoryFaults :
    (let s := sized 0xF7 State.reset
     (0 : Byte).toNat < 8 ∧ s.sp ≠ 0 ∧ s.cfg.memSize ≤ (s.sp - 1).toNat ∧ s.pc + 2 ≤ 255) ∧
    (let s := sized 0xF7 (State.reset.setSp 0xF7)
     s.sp.toNat < s.cfg.spInit.toNat ∧ s.cfg.memSize ≤ s.sp.toNat) := by decide

/-- One state for each of the seven places of the priority order, and one without a fault. -/
theorem witness_CycleRaisesTheFirstFaultInPriorityOrder :
    (at_ 256 []).cfg.wf = true ∧ (at_ 256 []).status = .running ∧
    (at_ 256 []).cycleFault = some (.outOfBounds 256 .fetch) ∧
    (at_ 0 [0x00]).cycleFault = some (.invalidOpcode 0x00) ∧
    (at_ 254 [0x82, 0x09]).cycleFault = some (.outOfBounds 256 .operand) ∧
    (at_ 0 [0xA2, 0x0A, 0x09]).cycleFault = some (.invalidRegister 0x0A .first) ∧
    ((at_ 254 [0x50, 0x00]).setSp 0).cycleFault = some (.stackOverflow 0) ∧
    (at_ 0 [0x46, 0x00]).cycleFault = some (.stackUnderflow 0xF8) ∧
    (at_ 254 [0x50, 0x00]).cycleFault = some (.returnAddressUnrepresentable 256) ∧
    (sized 200 (at_ 0 [0x45, 0x00])).cycleFault = some (.outOfBounds 0xF7 .dataWrite) ∧
    (at_ 0 [0x45, 0x00]).cycleFault = none := by decide

/-- A fault of the fetch, and one of the execution. -/
theorem witness_FaultsArePrecise :
    (∃ t, (at_ 256 []).status = .running ∧ step (at_ 256 []) = .next t ∧
      t.status = .halted (.fault ⟨256, .outOfBounds 256 .fetch⟩)) ∧
    ∃ t, (at_ 0 [0x46, 0x00]).status = .running ∧ step (at_ 0 [0x46, 0x00]) = .next t ∧
      t.status = .halted (.fault ⟨0, .stackUnderflow 0xF8⟩) :=
  ⟨⟨_, rfl, rfl, rfl⟩, ⟨_, rfl, rfl, rfl⟩⟩

/-- A state that meets the invariant and steps: PUSH R0 at reset. -/
theorem witness_EveryStepKeepsTheInvariant :
    (at_ 0 [0x45, 0x00]).Inv ∧ ∃ t, step (at_ 0 [0x45, 0x00]) = .next t :=
  ⟨⟨by decide, by decide, by decide, by decide, fun _ h => by cases h⟩, ⟨_, rfl⟩⟩

theorem witness_ResetMeetsTheInvariant :
    tableConfig.wf = true ∧ Memory.wf [(0, 1), (255, 0)] = true ∧ Memory.within 256 [(0, 1), (255, 0)] = true := by decide

theorem witness_EveryStepAnswersANextState : State.reset.cfg.wf = true := by decide

theorem witness_ConfigurationAndHaltAreFixed :
    (∃ t, step (at_ 0 [0x47, 0x00]) = .next t) ∧
    (∃ t, step (State.reset.halt .hlt) = .next t) ∧ (State.reset.halt .hlt).status ≠ .running :=
  ⟨⟨_, rfl⟩, ⟨_, rfl⟩, by decide⟩

theorem witness_InstructionsIgnoreTheInstructionRegister : ∃ t, exec (.prn 7) State.reset = .next t := ⟨_, rfl⟩

/-- A PRN of R7, and a PRN whose two bytes end at the top of memory. -/
theorem witness_OutputGrowsOnlyByPrn :
    (∃ t, step (at_ 0 [0x47, 0x07]) = .next t ∧ t.output = [0xF8]) ∧
    (let s := at_ 254 [0x47, 0x07]
     (s.mem.read (s.pc + 1)).toNat < 8 ∧ s.cfg.wf = true ∧ s.status = .running ∧ s.pc + 1 < s.cfg.memSize ∧
       s.mem.read s.pc = s.cfg.opc.prn) := ⟨⟨_, rfl, rfl⟩, by decide⟩

/-- SP at SP_INIT and at 1 for a push, one below SP_INIT for a pop; an LDI into SP. -/
theorem witness_StackPointerStaysInItsRegion :
    State.reset.cfg.stackCheck = .fault ∧ State.reset.sp.toNat ≤ State.reset.cfg.spInit.toNat ∧
    (∃ t, exec (.push 7) State.reset = .next t) ∧ (∃ t, exec (.call 0) (State.reset.setSp 1) = .next t) ∧
    (∃ t, exec (.pop 0) (State.reset.setSp 0xF7) = .next t) ∧ (0 : Byte).toNat ≠ State.reset.cfg.spIndex.val ∧
    (State.reset.setSp 0xF7).sp.toNat ≤ State.reset.cfg.spInit.toNat ∧
    (∃ t, exec .ret (State.reset.setSp 0xF7) = .next t) ∧
    ∃ t, exec (.ldi 7 0xFF) State.reset = .next t ∧ ¬ t.sp.toNat ≤ State.reset.cfg.spInit.toNat :=
  ⟨rfl, by decide, ⟨_, rfl⟩, ⟨_, rfl⟩, ⟨_, rfl⟩, by decide, by decide, ⟨_, rfl⟩, ⟨_, rfl, by decide⟩⟩

/-- SP at 1 and at SP_INIT under Fault, 0 under Wrap. -/
theorem witness_PushThenPopBalances :
    (0 : Byte).toNat < 8 ∧ (6 : Byte).toNat < 8 ∧ (0 : Byte).toNat ≠ State.reset.cfg.spIndex.val ∧
    (6 : Byte).toNat ≠ State.reset.cfg.spIndex.val ∧
    (∀ s ∈ [State.reset, State.reset.setSp 1],
      1 ≤ s.sp.toNat ∧ s.sp.toNat ≤ s.cfg.spInit.toNat ∧ (s.sp - 1).toNat < s.cfg.memSize) ∧
    (let s := wrapping (State.reset.setSp 0); s.cfg.stackCheck = .wrap ∧ (s.sp - 1).toNat < s.cfg.memSize) := by decide

/-- The state after the CALL itself is a `u` of the statement. -/
theorem witness_RetReturnsAfterCall :
    let s := at_ 253 [0x50, 0x00]
    (0 : Byte).toNat < 8 ∧ 1 ≤ s.sp.toNat ∧ s.sp.toNat ≤ s.cfg.spInit.toNat ∧ s.pc + 2 ≤ 255 ∧
      (s.sp - 1).toNat < s.cfg.memSize := by decide

theorem witness_AluMulLaws :
    aluApply .mul 255 200 = some 56 ∧ aluApply .mul 200 200 = some 64 := by decide

theorem witness_ReservedAluTagsAreRefusedAndUnreachable : AluTag.cmp ≠ .mul := by decide

theorem witness_RequestsStayInsideMemory :
    Request.read 255 .fetch ∈ (at_ 255 [0x01]).requests ∧ Request.write 0xF7 0 ∈ (at_ 0 [0x45, 0x00]).requests := by decide

/-- A cycle with a write request, and addresses it writes and does not write. -/
theorem witness_MemoryChangesOnlyByTheWriteRequest :
    (∃ t, step (at_ 0 [0x45, 0x00]) = .next t) ∧ Request.write 0xF7 0 ∈ (at_ 0 [0x45, 0x00]).requests ∧
    ∀ v, Request.write 0xF8 v ∉ (at_ 0 [0x45, 0x00]).requests := by
  refine ⟨⟨_, rfl⟩, by decide, fun v h => ?_⟩
  have e : (at_ 0 [0x45, 0x00]).requests = [.read 0 .fetch, .read 1 .operand, .write 0xF7 0] := by decide
  rw [e] at h
  simp at h

/-- Another memory that agrees on the two bytes PRN R7 requests and on nothing else that is listed. -/
theorem witness_CycleReadsOnlyWhatItRequests :
    (∃ t, step (at_ 0 [0x47, 0x07]) = .next t) ∧
    ∀ a k, Request.read a k ∈ (at_ 0 [0x47, 0x07]).requests →
      Memory.read [(0, 0x47), (1, 0x07), (2, 0x99)] a = (at_ 0 [0x47, 0x07]).mem.read a := by
  refine ⟨⟨_, rfl⟩, fun a k h => ?_⟩
  have e : (at_ 0 [0x47, 0x07]).requests = [.read 0 .fetch, .read 1 .operand] := by decide
  simp only [e, List.mem_cons, Request.read.injEq, List.not_mem_nil, or_false] at h
  rcases h with ⟨rfl, -⟩ | ⟨rfl, -⟩ <;> decide

/-- The same contents listed twice over: the second entry of an address is never read. -/
theorem witness_RunsDependOnlyOnMemoryContents :
    let u : State := { State.reset with mem := [(0, 1)] }
    let s : State := { State.reset with mem := [(0, 1), (0, 2)] }
    { s with mem := u.mem } = u ∧ ∀ a, s.mem.read a = u.mem.read a := by
  refine ⟨rfl, fun a => ?_⟩
  by_cases h : 0 = a <;> simp [Memory.read, Memory.lookup, h]

/-- PUSH R0 writes at 0xF7, where the next fetch is. -/
theorem witness_WritesAreSeenByTheNextFetch :
    ∃ t u : State, step (at_ 0 [0x45, 0x00]) = .next t ∧ Request.write 0xF7 0 ∈ (at_ 0 [0x45, 0x00]).requests ∧
      u.cfg = t.cfg ∧ u.mem = t.mem ∧ u.status = .running ∧ u.pc = 0xF7 :=
  ⟨_, { at_ 0xF7 [] with mem := [(0, 0x45), (1, 0x00), (0xF7, 0)] }, rfl, by decide, rfl, rfl, rfl, rfl⟩

/-- After reset and in HALTED, an image that just fits and one that does not; a run one fetch on. -/
theorem witness_LoadPlacesTheImageAtZero :
    sized 2 State.reset = (sized 2 State.reset).hostReset ∧
    (∃ c, (sized 2 (State.reset.halt .hlt)).status = .halted c) ∧
    [(1 : Byte), 2].length ≤ (sized 2 State.reset).cfg.memSize ∧ (sized 1 State.reset).cfg.memSize < [(1 : Byte), 2].length ∧
    (at_ 3 []).status = .running ∧ at_ 3 [] ≠ (at_ 3 []).hostReset :=
  ⟨by decide, ⟨_, rfl⟩, by decide⟩

/-- The host loads before the first step and in HALTED, not in the middle of a run (70_reset_and_hazards.md R204). -/
theorem test_load_not_during_a_run :
    (State.reset.hostLoad [1]).isSome = true ∧ ((at_ 3 []).hostLoad [1]).isNone = true ∧
    (((at_ 3 []).halt .hlt).hostLoad [1]).isSome = true := by decide

theorem witness_AssemblerTextParsesBack : Instr.wellFormed (.ldi 7 255) = true := by decide

theorem witness_RegisterOperandForms : (7 : Byte).toNat ≤ 7 ∧ 7 < (8 : Byte).toNat := by decide

end Sys2Proof.Tests
end

section
/-! SUPPORT. The dispatch table and the decoder: an entry is found exactly under its own opcode, and the decoder reads
exactly the encoding (30_encoding.md R61, R65, R69). -/

namespace Sys2Proof

/-! ### The dispatch table (30_encoding.md R65) -/

theorem mem_of_lookupIn_eq_some {rows : List (Byte × Mnemonic)} {op : Byte} {m : Mnemonic}
    (h : lookupIn rows op = some m) : (op, m) ∈ rows := by
  induction rows with
  | nil => cases h
  | cons row rows ih =>
    obtain ⟨b, k⟩ := row
    by_cases hb : b = op
    · simp_all [lookupIn]
    · exact List.mem_cons_of_mem _ (ih (by simpa [lookupIn, hb] using h))

/-- Where no opcode stands twice, every row is found under its opcode. -/
theorem lookupIn_eq_some_of_mem {rows : List (Byte × Mnemonic)} {op : Byte} {m : Mnemonic}
    (hd : distinct (rows.map Prod.fst) = true) (h : (op, m) ∈ rows) : lookupIn rows op = some m := by
  induction rows with
  | nil => cases h
  | cons row rows ih =>
    obtain ⟨b, k⟩ := row
    obtain ⟨hb, hrows⟩ : b ∉ rows.map Prod.fst ∧ distinct (rows.map Prod.fst) = true := by
      simpa [distinct] using hd
    rcases List.mem_cons.1 h with e | h
    · cases e
      simp [lookupIn]
    · have hne : b ≠ op := fun e => hb (e ▸ List.mem_map_of_mem h)
      simpa [lookupIn, hne] using ih hrows h

/-- A byte that is looked up successfully is the opcode of a mnemonic the table holds. -/
theorem lookup_eq_some {cfg : Config} {op : Byte} {m : Mnemonic} (h : lookup cfg op = some m) :
    op = opcodeOf cfg.opc m ∧ m ∈ presentMnemonics cfg.retJmp := by
  obtain ⟨m', hm', e⟩ := List.mem_map.1 (mem_of_lookupIn_eq_some h)
  cases e
  exact ⟨rfl, hm'⟩

/-- Under a legal configuration every mnemonic the table holds is found under its opcode. -/
theorem lookup_opcodeOf {cfg : Config} {m : Mnemonic} (hw : cfg.wf = true) (hm : m ∈ presentMnemonics cfg.retJmp) :
    lookup cfg (opcodeOf cfg.opc m) = some m := by
  obtain ⟨-, hd⟩ : 1 ≤ cfg.memSize ∧ distinct ((dispatchTable cfg).map Prod.fst) = true := by
    simpa [Config.wf] using hw
  exact lookupIn_eq_some_of_mem hd (List.mem_map.2 ⟨m, hm, rfl⟩)

theorem Instr.present_iff (cfg : Config) (i : Instr) :
    i.present cfg = true ↔ i.mnemonic ∈ presentMnemonics cfg.retJmp := by
  simp [Instr.present]

/-- PRN stands in the table under both settings of `RET_JMP`. -/
theorem prn_present (cfg : Config) (r : Byte) : (Instr.prn r).present cfg = true := by
  unfold Instr.present
  cases cfg.retJmp <;> rfl

/-! ### The decoder (30_encoding.md R61) -/

theorem oneOperand_eq_ok {mk : Byte → Instr} {bs rest : List Byte} {i : Instr}
    (h : oneOperand mk bs = .ok (i, rest)) : ∃ r, i = mk r ∧ bs = r :: rest := by
  cases bs with
  | nil => cases h
  | cons r bs => cases h; exact ⟨r, rfl, rfl⟩

theorem twoOperands_eq_ok {mk : Byte → Byte → Instr} {bs rest : List Byte} {i : Instr}
    (h : twoOperands mk bs = .ok (i, rest)) : ∃ a b, i = mk a b ∧ bs = a :: b :: rest := by
  match bs, h with
  | a :: b :: _, h => cases h; exact ⟨a, b, rfl, rfl⟩

/-- The operands read for a mnemonic are the encoding of the answered instruction after its opcode. -/
theorem decodeOperands_eq_ok {m : Mnemonic} {bs rest : List Byte} {i : Instr}
    (h : decodeOperands m bs = .ok (i, rest)) (opc : Opc) :
    i.mnemonic = m ∧ opcodeOf opc m :: bs = encode opc i ++ rest := by
  cases m with
  | hlt | ret => cases h; exact ⟨rfl, rfl⟩
  | ldi | mul => obtain ⟨a, b, rfl, rfl⟩ := twoOperands_eq_ok h; exact ⟨rfl, rfl⟩
  | prn | push | pop | call | jmp => obtain ⟨r, rfl, rfl⟩ := oneOperand_eq_ok h; exact ⟨rfl, rfl⟩

/-- The mnemonic's operands are read back from the encoding after its opcode. -/
theorem decodeOperands_encode_tail (opc : Opc) (i : Instr) (rest : List Byte) :
    decodeOperands i.mnemonic ((encode opc i).tail ++ rest) = .ok (i, rest) := by
  cases i <;> rfl

theorem encode_eq_cons (opc : Opc) (i : Instr) : encode opc i = opcodeOf opc i.mnemonic :: (encode opc i).tail := by
  cases i <;> rfl

/-- What the decoder answers is an instruction the table holds, and the bytes were its encoding. -/
theorem decode_eq_ok {cfg : Config} {bs rest : List Byte} {i : Instr} (h : decode cfg bs = .ok (i, rest)) :
    bs = encode cfg.opc i ++ rest ∧ i.present cfg = true := by
  cases bs with
  | nil => cases h
  | cons op bs =>
    cases hl : lookup cfg op with
    | none => simp [decode, hl] at h
    | some m =>
      obtain ⟨rfl, hm⟩ := lookup_eq_some hl
      obtain ⟨rfl, hbs⟩ := decodeOperands_eq_ok (by simpa [decode, hl] using h) cfg.opc
      exact ⟨hbs, (Instr.present_iff cfg i).2 hm⟩

/-- The decoder reads back the encoding of every instruction the table holds, whatever follows. -/
theorem decode_encode_append {cfg : Config} {i : Instr} (hw : cfg.wf = true) (hi : i.present cfg = true)
    (rest : List Byte) : decode cfg (encode cfg.opc i ++ rest) = .ok (i, rest) := by
  have hl := lookup_opcodeOf hw ((Instr.present_iff cfg i).1 hi)
  rw [encode_eq_cons, List.cons_append]
  simp [decode, hl, decodeOperands_encode_tail]

end Sys2Proof
end

section
/-! SUPPORT. What an instruction and a step can do, said once: complete, or raise a fault, which changes the run state
alone (40_fetch_decode_execute.md R85, R86; 60_exceptions.md R171). -/

namespace Sys2Proof.Machine

/-! ### A check goes on or raises a fault -/

theorem raise_eq_next {s t : State} {f : FaultInfo} (h : raise s f = .next t) : t = s.raised f := by
  cases h
  rfl

theorem withReg_eq_next {s t : State} {b : Byte} {k : Position} {go : Fin 8 → Answer}
    (h : withReg s b k go = .next t) : (∃ f, t = s.raised f) ∨ ∃ i, b = regByte i ∧ go i = .next t := by
  rcases withReg_cases s b k go with ⟨i, hb, e⟩ | ⟨-, e⟩ <;> rw [e] at h
  · exact .inr ⟨i, hb, h⟩
  · exact .inl ⟨_, raise_eq_next h⟩

theorem withReg_of_lt {s : State} {b : Byte} {k : Position} {go : Fin 8 → Answer} (h : b.toNat < 8) :
    withReg s b k go = go ⟨b.toNat, h⟩ := by
  simp [withReg, regIndex, h]

theorem withinMemory_eq_next {s t : State} {a : Nat} {k : AccessKind} {go : Answer}
    (h : withinMemory s a k go = .next t) : (∃ f, t = s.raised f) ∨ (a < s.cfg.memSize ∧ go = .next t) := by
  rcases withinMemory_cases s a k go with ⟨ha, e⟩ | ⟨-, e⟩ <;> rw [e] at h
  · exact .inr ⟨ha, h⟩
  · exact .inl ⟨_, raise_eq_next h⟩

theorem withStackRoom_eq_next {s t : State} {go : Byte → Answer} (h : withStackRoom s go = .next t) :
    (∃ f, t = s.raised f) ∨ ((s.cfg.stackCheck = .wrap ∨ s.sp ≠ 0) ∧ go (s.sp - 1) = .next t) := by
  rcases withStackRoom_cases s go with ⟨hs, e⟩ | ⟨-, e⟩ <;> rw [e] at h
  · exact .inr ⟨hs, h⟩
  · exact .inl ⟨_, raise_eq_next h⟩

theorem withStackTop_eq_next {s t : State} {go : Byte → Answer} (h : withStackTop s go = .next t) :
    (∃ f, t = s.raised f) ∨
      ((s.cfg.stackCheck = .wrap ∨ s.sp.toNat < s.cfg.spInit.toNat) ∧ s.sp.toNat < s.cfg.memSize ∧
        go (s.mem.read s.sp.toNat) = .next t) := by
  rcases withStackTop_cases s go with ⟨hs, hm, e⟩ | ⟨-, e⟩ | ⟨-, -, e⟩ <;> rw [e] at h
  · exact .inr ⟨hs, hm, h⟩
  · exact .inl ⟨_, raise_eq_next h⟩
  · exact .inl ⟨_, raise_eq_next h⟩

theorem withReturnByte_eq_next {s t : State} {n : Nat} {go : Byte → Answer} (h : withReturnByte s n go = .next t) :
    (∃ f, t = s.raised f) ∨ (n ≤ 255 ∧ go (BitVec.ofNat 8 n) = .next t) := by
  rcases withReturnByte_cases s n go with ⟨hn, e⟩ | ⟨-, e⟩ <;> rw [e] at h
  · exact .inr ⟨hn, h⟩
  · exact .inl ⟨_, raise_eq_next h⟩

/-! ### An instruction completes or raises a fault -/

/-- `Completes i s t`: the checks of `i` pass in `s`, and `t` is the state its meaning then writes
(42_register_ops.md, 43_stack.md, 44_control_transfer.md). -/
inductive Completes : Instr → State → State → Prop where
  | hlt (s : State) : Completes .hlt s (s.halt .hlt)
  | ldi (s : State) (i : Fin 8) (imm : Byte) :
      Completes (.ldi (regByte i) imm) s ((s.writeReg i (immediate imm)).setPc (s.pc + 3))
  | mul (s : State) (a b : Fin 8) :
      Completes (.mul (regByte a) (regByte b)) s ((s.writeReg a (s.readReg a * s.readReg b)).setPc (s.pc + 3))
  | prn (s : State) (i : Fin 8) :
      Completes (.prn (regByte i)) s ((s.emit (s.readReg i)).setPc (s.pc + 2))
  | push (s : State) (i : Fin 8) (room : s.cfg.stackCheck = .wrap ∨ s.sp ≠ 0)
      (inside : (s.sp - 1).toNat < s.cfg.memSize) :
      Completes (.push (regByte i)) s ((s.pushed (s.sp - 1) (·.readReg i)).setPc (s.pc + 2))
  | pop (s : State) (i : Fin 8) (item : s.cfg.stackCheck = .wrap ∨ s.sp.toNat < s.cfg.spInit.toNat)
      (inside : s.sp.toNat < s.cfg.memSize) :
      Completes (.pop (regByte i)) s
        (((s.writeReg i (s.mem.read s.sp.toNat)).setSp
          (spInc (s.writeReg i (s.mem.read s.sp.toNat)).sp)).setPc (s.pc + 2))
  | call (s : State) (i : Fin 8) (room : s.cfg.stackCheck = .wrap ∨ s.sp ≠ 0) (fits : s.pc + 2 ≤ 255)
      (inside : (s.sp - 1).toNat < s.cfg.memSize) :
      Completes (.call (regByte i)) s
        ((s.pushed (s.sp - 1) fun _ => BitVec.ofNat 8 (s.pc + 2)).setPc ((s.setSp (s.sp - 1)).readReg i).toNat)
  | ret (s : State) (item : s.cfg.stackCheck = .wrap ∨ s.sp.toNat < s.cfg.spInit.toNat)
      (inside : s.sp.toNat < s.cfg.memSize) :
      Completes .ret s ((s.setSp (spInc s.sp)).setPc (s.mem.read s.sp.toNat).toNat)
  | jmp (s : State) (i : Fin 8) :
      Completes (.jmp (regByte i)) s (s.setPc (s.readReg i).toNat)

/-- An instruction that answers a state has raised a fault or has completed. -/
theorem exec_eq_next {i : Instr} {s t : State} (h : exec i s = .next t) :
    (∃ f, t = s.raised f) ∨ Completes i s t := by
  cases i with
  | hlt => cases h; exact .inr (.hlt s)
  | ldi r imm =>
    simp only [exec, execLdi] at h
    obtain hf | ⟨i, rfl, hgo⟩ := withReg_eq_next h
    · exact .inl hf
    · cases hgo; exact .inr (.ldi s i imm)
  | mul rA rB =>
    simp only [exec, execMul, withAlu_mul] at h
    obtain hf | ⟨a, rfl, hB⟩ := withReg_eq_next h
    · exact .inl hf
    obtain hf | ⟨b, rfl, hgo⟩ := withReg_eq_next hB
    · exact .inl hf
    · cases hgo; exact .inr (.mul s a b)
  | prn r =>
    simp only [exec, execPrn] at h
    obtain hf | ⟨i, rfl, hgo⟩ := withReg_eq_next h
    · exact .inl hf
    · cases hgo; exact .inr (.prn s i)
  | push r =>
    simp only [exec, execPush] at h
    obtain hf | ⟨i, rfl, hstack⟩ := withReg_eq_next h
    · exact .inl hf
    obtain hf | ⟨room, hmem⟩ := withStackRoom_eq_next hstack
    · exact .inl hf
    obtain hf | ⟨inside, hgo⟩ := withinMemory_eq_next hmem
    · exact .inl hf
    · cases hgo; exact .inr (.push s i room inside)
  | pop r =>
    simp only [exec, execPop] at h
    obtain hf | ⟨i, rfl, hstack⟩ := withReg_eq_next h
    · exact .inl hf
    obtain hf | ⟨item, inside, hgo⟩ := withStackTop_eq_next hstack
    · exact .inl hf
    · cases hgo; exact .inr (.pop s i item inside)
  | call r =>
    simp only [exec, execCall] at h
    obtain hf | ⟨i, rfl, hstack⟩ := withReg_eq_next h
    · exact .inl hf
    obtain hf | ⟨room, hret⟩ := withStackRoom_eq_next hstack
    · exact .inl hf
    obtain hf | ⟨fits, hmem⟩ := withReturnByte_eq_next hret
    · exact .inl hf
    obtain hf | ⟨inside, hgo⟩ := withinMemory_eq_next hmem
    · exact .inl hf
    · cases hgo; exact .inr (.call s i room fits inside)
  | ret =>
    simp only [exec, execRet] at h
    obtain hf | ⟨item, inside, hgo⟩ := withStackTop_eq_next h
    · exact .inl hf
    · cases hgo; exact .inr (.ret s item inside)
  | jmp r =>
    simp only [exec, execJmp] at h
    obtain hf | ⟨i, rfl, hgo⟩ := withReg_eq_next h
    · exact .inl hf
    · cases hgo; exact .inr (.jmp s i)

/-! ### A step -/

/-- A cycle whose bytes at `pc` decode is `exec` of that instruction, the opcode latched in `ir`. -/
theorem step_of_decode {s : State} {i : Instr} {rest : List Byte} (hw : s.cfg.wf = true) (hr : s.status = .running)
    (hd : decode s.cfg s.window = .ok (i, rest)) : step s = exec i (s.latchIr (s.mem.read s.pc)) := by
  simp [step_running hw hr, fetchDecode, hd]

/-- A step that answers a state stayed in HALTED, raised a fault before or after latching the opcode, or completed
the instruction decoded at `pc`. -/
theorem step_eq_next {s t : State} (h : step s = .next t) :
    ((∃ c, s.status = .halted c) ∧ t = s) ∨
      (s.status = .running ∧
        ((∃ f, t = s.raised f) ∨ (∃ f, t = (s.latchIr (s.mem.read s.pc)).raised f) ∨
          ∃ i rest, decode s.cfg s.window = .ok (i, rest) ∧ Completes i (s.latchIr (s.mem.read s.pc)) t)) := by
  rcases step_cases s with ⟨-, e⟩ | ⟨-, hs, e⟩ | ⟨hw, hr, -⟩
  · cases e.symm.trans h
  · cases e.symm.trans h
    exact .inl ⟨hs, rfl⟩
  · refine .inr ⟨hr, ?_⟩
    rw [step_running hw hr] at h
    rcases fetchDecode_cases s with ⟨i, rest, hd, e⟩ | ⟨-, e⟩ | ⟨op, -, e⟩ | ⟨k, -, e⟩ <;> rw [e] at h
    · exact .inr ((exec_eq_next h).imp id fun hc => ⟨i, rest, hd, hc⟩)
    · cases h; exact .inl ⟨_, rfl⟩
    · cases h; exact .inr (.inl ⟨_, rfl⟩)
    · cases h; exact .inr (.inl ⟨_, rfl⟩)

end Sys2Proof.Machine
end

section
/-! PROOFS. The output trace (10_state.md R30) and the reset values (10_state.md R35). -/

namespace Sys2Proof.Machine

/-! ### The output trace -/

/-- Only PRN writes the output trace. -/
theorem Completes.output_eq {i : Instr} {s t : State} (h : Completes i s t) :
    t.output = s.output ∨ ∃ j, i = .prn (regByte j) ∧ t.output = s.output ++ [s.readReg j] := by
  cases h with
  | prn _ j => exact .inr ⟨j, rfl, rfl⟩
  | _ => exact .inl rfl

/-- A step keeps the output trace or decodes a PRN of one of the eight registers and appends that register's value. -/
theorem step_output {s t : State} (h : step s = .next t) :
    t.output = s.output ∨
      ∃ j rest, decode s.cfg s.window = .ok (.prn (regByte j), rest) ∧ t.output = s.output ++ [s.readReg j] := by
  obtain ⟨-, rfl⟩ | ⟨-, ⟨f, rfl⟩ | ⟨f, rfl⟩ | ⟨i, rest, hd, hc⟩⟩ := step_eq_next h
  · exact .inl rfl
  · exact .inl rfl
  · exact .inl rfl
  · exact hc.output_eq.imp id fun ⟨j, hi, ho⟩ => ⟨j, rest, hi ▸ hd, ho⟩

/-- Two bytes at the head of the fetch window are the cells at `pc` and `pc + 1`, both inside memory. -/
theorem State.window_eq_cons_cons {s : State} {a b : Byte} {rest : List Byte} (h : s.window = a :: b :: rest) :
    s.pc + 1 < s.cfg.memSize ∧ s.mem.read s.pc = a ∧ s.mem.read (s.pc + 1) = b := by
  by_cases h1 : s.pc + 1 < s.cfg.memSize
  · have h0 : s.pc < s.cfg.memSize := by omega
    simp only [State.window_eq, if_pos h0, if_pos h1, List.cons.injEq] at h
    obtain ⟨ha, hb, -⟩ := h
    exact ⟨h1, ha, hb⟩
  · rw [State.window_eq, if_neg h1] at h
    split at h <;> cases h

/-- Where `pc + 1` lies inside memory the fetch window begins with the two cells at `pc` and `pc + 1`. -/
theorem State.exists_window_eq_cons_cons {s : State} (h : s.pc + 1 < s.cfg.memSize) :
    ∃ rest, s.window = s.mem.read s.pc :: s.mem.read (s.pc + 1) :: rest := by
  have h0 : s.pc < s.cfg.memSize := by omega
  rw [State.window_eq, if_pos h0, if_pos h]
  exact ⟨_, rfl⟩

/-- A cycle at a PRN whose operand lies inside memory is `exec` of that PRN. -/
theorem step_at_prn {s : State} (hw : s.cfg.wf = true) (hr : s.status = .running) (hm : s.pc + 1 < s.cfg.memSize)
    (hop : s.mem.read s.pc = s.cfg.opc.prn) :
    step s = exec (.prn (s.mem.read (s.pc + 1))) (s.latchIr (s.mem.read s.pc)) := by
  obtain ⟨rest, hwin⟩ := State.exists_window_eq_cons_cons hm
  refine step_of_decode (rest := rest) hw hr ?_
  rw [hwin, hop]
  exact decode_encode_append hw (prn_present _ _) rest

/-- PRN of one of the eight registers appends its value and moves `pc` past the instruction. -/
theorem exec_prn_of_lt {s : State} {r : Byte} (h : r.toNat < 8) :
    exec (.prn r) s = .next ((s.emit (s.readReg ⟨r.toNat, h⟩)).setPc (s.pc + 2)) :=
  withReg_of_lt h

/-- Settles O39: by the inversion of a step, only a completed PRN touches the trace, and the decoder ties that PRN to the
bytes at `pc`; in the other direction the bytes of a PRN decode to it. -/
theorem outputGrowsOnlyByPrn : Obligations.OutputGrowsOnlyByPrn := by
  refine ⟨fun _ _ => rfl, fun s t hst => (step_output hst).imp id ?_, fun s h hw hr hm hop => ?_⟩
  · rintro ⟨j, rest, hd, ho⟩
    obtain ⟨hbytes, -⟩ := decode_eq_ok hd
    obtain ⟨hm, hop, hr⟩ := State.window_eq_cons_cons hbytes
    have hj : (⟨(regByte j).toNat, by rw [regByte_toNat]; exact j.isLt⟩ : Fin 8) = j := Fin.ext (regByte_toNat j)
    exact ⟨regByte j, _, hm, hop, hr, by rw [hj, ho]⟩
  · exact ⟨_, (step_at_prn hw hr hm hop).trans (exec_prn_of_lt h), rfl⟩

/-! ### Reset -/

@[simp] theorem State.sp_construct (cfg : Config) (mem : Memory) : (State.construct cfg mem).sp = cfg.spInit := by
  simp [State.sp, State.readReg, State.construct]

theorem State.readReg_construct_ne (cfg : Config) (mem : Memory) {j : Fin 8} (h : j ≠ cfg.spIndex) :
    (State.construct cfg mem).readReg j = 0 := by
  have hne : cfg.spIndex.val ≠ j.val := fun e => h (Fin.ext e.symm)
  simp [State.readReg, State.construct, hne]

/-- Settles O40: reset is construction over the state's own configuration and memory, which fixes every other field. -/
theorem resetValues : Obligations.ResetValues :=
  ⟨fun s => ⟨State.sp_construct s.cfg s.mem, fun _ h => State.readReg_construct_ne s.cfg s.mem h,
    rfl, rfl, rfl, rfl, rfl, rfl, rfl, rfl⟩, rfl⟩

end Sys2Proof.Machine
end

section
/-! PROOFS. The decoder's selection by exact match of the opcode byte (30_encoding.md R65). -/

namespace Sys2Proof

/-- Only RET and JMP depend on `RET_JMP` for their place in the table. -/
theorem mem_presentMnemonics_iff {rj : RetJmp} {m : Mnemonic} :
    m ∈ presentMnemonics rj ↔ ((m = .ret ∨ m = .jmp) → rj = .implemented) := by
  cases rj <;> cases m <;> decide

theorem lookup_eq_some_iff {cfg : Config} {op : Byte} {m : Mnemonic} (hw : cfg.wf = true) :
    lookup cfg op = some m ↔ op = opcodeOf cfg.opc m ∧ m ∈ presentMnemonics cfg.retJmp :=
  ⟨lookup_eq_some, fun ⟨hop, hm⟩ => hop ▸ lookup_opcodeOf hw hm⟩

theorem lookup_eq_none_iff {cfg : Config} {op : Byte} (hw : cfg.wf = true) :
    lookup cfg op = none ↔ ∀ m ∈ presentMnemonics cfg.retJmp, op ≠ opcodeOf cfg.opc m := by
  rw [Option.eq_none_iff_forall_ne_some]
  refine forall_congr' fun m => ?_
  rw [Ne, lookup_eq_some_iff hw, and_comm, not_and]

end Sys2Proof

namespace Sys2Proof.Machine

theorem Completes.cfg_eq {i : Instr} {s t : State} (h : Completes i s t) : t.cfg = s.cfg := by
  cases h <;> rfl

/-- No step writes the configuration, the dispatch table included. -/
theorem step_cfg {s t : State} (h : step s = .next t) : t.cfg = s.cfg := by
  obtain ⟨-, rfl⟩ | ⟨-, ⟨f, rfl⟩ | ⟨f, rfl⟩ | ⟨i, rest, -, hc⟩⟩ := step_eq_next h
  · rfl
  · rfl
  · rfl
  · exact hc.cfg_eq

/-- Settles O4: a legal table holds no opcode twice, so lookup finds exactly its entries, and no step writes the
configuration the table is computed from. -/
theorem lookupIsExactOpcodeMatch : Obligations.LookupIsExactOpcodeMatch := by
  intro cfg op hw
  refine ⟨fun m => ?_, ?_, fun s t hs hstep => ?_⟩
  · rw [lookup_eq_some_iff hw, mem_presentMnemonics_iff]
  · simp only [lookup_eq_none_iff hw, mem_presentMnemonics_iff]
  · rw [step_cfg hstep, hs]

end Sys2Proof.Machine
end

section
/-! SUPPORT. The nested checks of a cycle take the first fault of the flat priority list `State.cycleFault`
(60_exceptions.md R178). -/

namespace Sys2Proof.Machine

/-! ### The checks of an instruction, one entry of the list at a time -/

/-- The answer `a` of instruction `i` in state `s` is governed by the list `cs` of fault conditions: it raises the first
fault whose condition holds, and it completes when none does. -/
def AnswersFirst (i : Instr) (s : State) (cs : List (Bool × FaultInfo)) (a : Answer) : Prop :=
  match firstFault cs with
  | some f => a = raise s f
  | none => ∃ t, a = .next t ∧ Completes i s t

section
variable {i : Instr} {s : State} {cs : List (Bool × FaultInfo)}

theorem Completes.answersFirst {t : State} (h : Completes i s t) : AnswersFirst i s [] (.next t) := ⟨t, rfl, h⟩

theorem answersFirst_cons_true {f : FaultInfo} {a : Answer} (h : a = raise s f) :
    AnswersFirst i s ((true, f) :: cs) a := h

@[simp] theorem answersFirst_cons_false {f : FaultInfo} {a : Answer} :
    AnswersFirst i s ((false, f) :: cs) a ↔ AnswersFirst i s cs a := Iff.rfl

theorem withReg_answersFirst {r : Byte} {k : Position} {go : Fin 8 → Answer}
    (h : ∀ j, r = regByte j → AnswersFirst i s cs (go j)) :
    AnswersFirst i s ((decide (7 < r.toNat), .invalidRegister r k) :: cs) (withReg s r k go) := by
  rcases withReg_cases s r k go with ⟨j, hj, e⟩ | ⟨hr, e⟩
  · have hlow : ¬ 7 < r.toNat := by rw [hj, regByte_toNat]; omega
    rw [e, decide_eq_false hlow]
    exact h j hj
  · rw [decide_eq_true hr]
    exact answersFirst_cons_true e

theorem withinMemory_answersFirst {a : Nat} {k : AccessKind} {go : Answer}
    (h : a < s.cfg.memSize → AnswersFirst i s cs go) :
    AnswersFirst i s ((decide (s.cfg.memSize ≤ a), .outOfBounds a k) :: cs) (withinMemory s a k go) := by
  rcases withinMemory_cases s a k go with ⟨ha, e⟩ | ⟨ha, e⟩
  · rw [e, decide_eq_false (Nat.not_le.2 ha)]
    exact h ha
  · rw [decide_eq_true ha]
    exact answersFirst_cons_true e

theorem withReturnByte_answersFirst {n : Nat} {go : Byte → Answer}
    (h : n ≤ 255 → AnswersFirst i s cs (go (BitVec.ofNat 8 n))) :
    AnswersFirst i s ((decide (255 < n), .returnAddressUnrepresentable n) :: cs) (withReturnByte s n go) := by
  rcases withReturnByte_cases s n go with ⟨hn, e⟩ | ⟨hn, e⟩
  · rw [e, decide_eq_false (Nat.not_lt.2 hn)]
    exact h hn
  · rw [decide_eq_true hn]
    exact answersFirst_cons_true e

theorem withStackRoom_answersFirst {go : Byte → Answer}
    (h : (s.cfg.stackCheck = .wrap ∨ s.sp ≠ 0) → AnswersFirst i s cs (go (s.sp - 1))) :
    AnswersFirst i s ((decide (s.cfg.stackCheck = .fault) && decide (s.sp = 0), .stackOverflow s.sp) :: cs)
      (withStackRoom s go) := by
  rcases withStackRoom_cases s go with ⟨room, e⟩ | ⟨⟨hc, h0⟩, e⟩
  · have hcond : (decide (s.cfg.stackCheck = .fault) && decide (s.sp = 0)) = false := by
      rcases room with hc | h0
      · simp [hc]
      · rw [decide_eq_false h0, Bool.and_false]
    rw [e, hcond]
    exact h room
  · rw [decide_eq_true hc, decide_eq_true h0]
    exact answersFirst_cons_true e

/-- The two entries between a pop's checks in the list are those of pushing instructions. -/
theorem withStackTop_answersFirst {f g : FaultInfo} {go : Byte → Answer}
    (h : (s.cfg.stackCheck = .wrap ∨ s.sp.toNat < s.cfg.spInit.toNat) → s.sp.toNat < s.cfg.memSize →
      AnswersFirst i s cs (go (s.mem.read s.sp.toNat))) :
    AnswersFirst i s
      ((decide (s.cfg.stackCheck = .fault) && decide (s.cfg.spInit.toNat ≤ s.sp.toNat), .stackUnderflow s.sp) ::
        (false, f) :: (false, g) :: (decide (s.cfg.memSize ≤ s.sp.toNat), .outOfBounds s.sp.toNat .dataRead) :: cs)
      (withStackTop s go) := by
  have hcond (item : s.cfg.stackCheck = .wrap ∨ s.sp.toNat < s.cfg.spInit.toNat) :
      (decide (s.cfg.stackCheck = .fault) && decide (s.cfg.spInit.toNat ≤ s.sp.toNat)) = false := by
    rcases item with hc | hlt
    · simp [hc]
    · simp [hlt]
  rcases withStackTop_cases s go with ⟨item, hm, e⟩ | ⟨⟨hc, hle⟩, e⟩ | ⟨item, hm, e⟩
  · rw [e, hcond item, decide_eq_false (Nat.not_le.2 hm)]
    exact h item hm
  · rw [decide_eq_true hc, decide_eq_true hle]
    exact answersFirst_cons_true e
  · rw [hcond item, decide_eq_true hm]
    simp only [answersFirst_cons_false]
    exact answersFirst_cons_true e

end

/-- `SP - 1` modulo 256, as the list of R178 writes it. -/
theorem State.toNat_sp_sub_one (s : State) : (s.sp - 1).toNat = (s.sp.toNat + 255) % 256 := by
  rw [BitVec.toNat_sub]
  simp [Nat.add_comm]

/-- Every instruction raises the first fault of its list, or completes when the list holds none
(60_exceptions.md R178 items 4 to 7). -/
theorem exec_answersFirst (i : Instr) (s : State) : AnswersFirst i s (faultConditions i s) (exec i s) := by
  cases i <;> simp only [faultConditions, registerOperands, pushesByte, popsByte, isCall, List.map_nil, List.map_cons,
    List.nil_append, List.cons_append, Bool.false_and, Bool.true_and, answersFirst_cons_false,
    ← State.toNat_sp_sub_one]
  case hlt => exact (Completes.hlt s).answersFirst
  case ldi r imm =>
    refine withReg_answersFirst ?_
    rintro j rfl
    exact (Completes.ldi s j imm).answersFirst
  case mul rA rB =>
    refine withReg_answersFirst ?_
    rintro a rfl
    refine withReg_answersFirst ?_
    rintro b rfl
    rw [withAlu_mul]
    exact (Completes.mul s a b).answersFirst
  case prn r =>
    refine withReg_answersFirst ?_
    rintro j rfl
    exact (Completes.prn s j).answersFirst
  case push r =>
    refine withReg_answersFirst ?_
    rintro j rfl
    exact withStackRoom_answersFirst fun room => withinMemory_answersFirst fun inside =>
      (Completes.push s j room inside).answersFirst
  case pop r =>
    refine withReg_answersFirst ?_
    rintro j rfl
    exact withStackTop_answersFirst fun item inside => (Completes.pop s j item inside).answersFirst
  case call r =>
    refine withReg_answersFirst ?_
    rintro j rfl
    exact withStackRoom_answersFirst fun room => withReturnByte_answersFirst fun fits =>
      withinMemory_answersFirst fun inside => (Completes.call s j room fits inside).answersFirst
  case ret =>
    simp only [exec, execRet]
    exact withStackTop_answersFirst fun item inside => (Completes.ret s item inside).answersFirst
  case jmp r =>
    refine withReg_answersFirst ?_
    rintro j rfl
    exact (Completes.jmp s j).answersFirst

theorem exec_of_firstFault_eq_some {i : Instr} {s : State} {f : FaultInfo}
    (h : firstFault (faultConditions i s) = some f) : exec i s = .next (s.raised f) := by
  simpa only [AnswersFirst, h, raise] using exec_answersFirst i s

theorem exec_of_firstFault_eq_none {i : Instr} {s : State} (h : firstFault (faultConditions i s) = none) :
    ∃ t, exec i s = .next t ∧ Completes i s t := by
  simpa only [AnswersFirst, h] using exec_answersFirst i s

/-! ### The bytes of the fetch -/

theorem decode_window_of_outside {s : State} (h : s.cfg.memSize ≤ s.pc) :
    decode s.cfg s.window = .error .noOpcode := by
  rw [State.window_eq, if_neg (Nat.not_lt.2 h)]
  rfl

theorem decode_window_of_lookup_eq_none {s : State} (h : s.pc < s.cfg.memSize)
    (hl : lookup s.cfg (s.mem.read s.pc) = none) :
    decode s.cfg s.window = .error (.invalidOpcode (s.mem.read s.pc)) := by
  rw [State.window_eq, if_pos h]
  simp only [decode, hl]

/-- Past a mapped opcode the decoder reads those of the next two cells that lie inside memory. -/
theorem decode_window_of_lookup_eq_some {s : State} {m : Mnemonic} (h : s.pc < s.cfg.memSize)
    (hl : lookup s.cfg (s.mem.read s.pc) = some m) :
    decode s.cfg s.window =
      decodeOperands m
        ([s.mem.read (s.pc + 1), s.mem.read (s.pc + 2)].take (s.cfg.memSize - (s.pc + 1))) := by
  obtain ⟨n, hn⟩ := Nat.exists_eq_add_of_lt h
  rw [State.window_eq, if_pos h]
  simp only [decode, hl]
  match n, hn with
  | 0, hn => simp [hn]
  | 1, hn => simp [hn, Nat.add_assoc]
  | n + 2, hn =>
    have hsub : s.cfg.memSize - (s.pc + 1) = n + 2 := by omega
    rw [if_pos (by omega), if_pos (by omega), hsub]
    simp

/-- Of two operand bytes only `n` are there: the first that is needed and missing is reported, and otherwise the
missing ones make no difference. -/
theorem decodeOperands_take_cases (m : Mnemonic) (a b : Byte) (n : Nat) :
    (1 ≤ operandCount m ∧ n = 0 ∧ decodeOperands m ([a, b].take n) = .error (.missingOperand .first)) ∨
      (2 ≤ operandCount m ∧ n = 1 ∧ decodeOperands m ([a, b].take n) = .error (.missingOperand .second)) ∨
      (operandCount m ≤ n ∧ ∃ i rest rest', decodeOperands m ([a, b].take n) = .ok (i, rest) ∧
        decodeOperands m [a, b] = .ok (i, rest')) := by
  match n with
  | 0 =>
    cases m with
    | hlt | ret => exact .inr (.inr ⟨Nat.le_refl 0, _, _, _, rfl, rfl⟩)
    | _ => exact .inl ⟨by decide, rfl, rfl⟩
  | 1 =>
    cases m with
    | ldi | mul => exact .inr (.inl ⟨by decide, rfl, rfl⟩)
    | _ => exact .inr (.inr ⟨by decide, _, _, _, rfl, rfl⟩)
  | n + 2 =>
    have hle : operandCount m ≤ n + 2 := by cases m <;> simp [operandCount]
    have hok : ∃ i rest, decodeOperands m [a, b] = .ok (i, rest) := by cases m <;> exact ⟨_, _, rfl⟩
    obtain ⟨i, rest, e⟩ := hok
    exact .inr (.inr ⟨hle, i, rest, rest, by simpa using e, e⟩)

/-- The decoded instruction is HLT exactly when the byte at `pc` is HLT's opcode. -/
theorem read_pc_eq_hlt_iff {s : State} {i : Instr} {rest : List Byte} (hw : s.cfg.wf = true)
    (hd : decode s.cfg s.window = .ok (i, rest)) : s.mem.read s.pc = s.cfg.opc.hlt ↔ i = .hlt := by
  obtain ⟨hbytes, hp⟩ := decode_eq_ok hd
  have hop : s.mem.read s.pc = opcodeOf s.cfg.opc i.mnemonic := by
    rw [encode_eq_cons, State.window_eq] at hbytes
    split at hbytes
    · exact (List.cons.inj hbytes).1
    · cases hbytes
  constructor
  · intro h
    have hi := lookup_opcodeOf hw ((Instr.present_iff _ _).1 hp)
    have hh : lookup s.cfg s.cfg.opc.hlt = some .hlt :=
      lookup_opcodeOf (m := .hlt) hw (mem_presentMnemonics_iff.2 nofun)
    rw [← hop, h, hh] at hi
    cases i <;> cases hi
    rfl
  · rintro rfl
    exact hop

/-! ### The cycle -/

theorem step_of_noOpcode {s : State} (hw : s.cfg.wf = true) (hr : s.status = .running)
    (hd : decode s.cfg s.window = .error .noOpcode) : step s = .next (s.raised (.outOfBounds s.pc .fetch)) := by
  simp [step_running hw hr, fetchDecode, hd]

theorem step_of_invalidOpcode {s : State} {op : Byte} (hw : s.cfg.wf = true) (hr : s.status = .running)
    (hd : decode s.cfg s.window = .error (.invalidOpcode op)) :
    step s = .next ((s.latchIr (s.mem.read s.pc)).raised (.invalidOpcode op)) := by
  simp [step_running hw hr, fetchDecode, hd]

theorem step_of_missingOperand {s : State} {k : Position} (hw : s.cfg.wf = true) (hr : s.status = .running)
    (hd : decode s.cfg s.window = .error (.missingOperand k)) :
    step s = .next ((s.latchIr (s.mem.read s.pc)).raised (.outOfBounds (s.pc + k.offset) .operand)) := by
  simp [step_running hw hr, fetchDecode, hd]

theorem State.cycleFault_of_outside {s : State} (h : s.cfg.memSize ≤ s.pc) :
    s.cycleFault = some (.outOfBounds s.pc .fetch) := if_pos h

theorem State.cycleFault_of_lookup_eq_none {s : State} (h : s.pc < s.cfg.memSize)
    (hl : lookup s.cfg (s.mem.read s.pc) = none) : s.cycleFault = some (.invalidOpcode (s.mem.read s.pc)) := by
  simp [State.cycleFault, Nat.not_le.2 h, hl]

section
variable {s : State} {m : Mnemonic} (h : s.pc < s.cfg.memSize) (hl : lookup s.cfg (s.mem.read s.pc) = some m)
include h hl

theorem State.cycleFault_of_missing_first (hc : 1 ≤ operandCount m) (hm : s.cfg.memSize ≤ s.pc + 1) :
    s.cycleFault = some (.outOfBounds (s.pc + 1) .operand) := by
  simp [State.cycleFault, Nat.not_le.2 h, hl, hc, hm]

theorem State.cycleFault_of_missing_second (hc : 2 ≤ operandCount m) (h1 : s.pc + 1 < s.cfg.memSize)
    (hm : s.cfg.memSize ≤ s.pc + 2) : s.cycleFault = some (.outOfBounds (s.pc + 2) .operand) := by
  simp [State.cycleFault, Nat.not_le.2 h, hl, Nat.not_le.2 h1, hc, hm]

/-- With the operands inside memory, the cycle's fault is the instruction's first. -/
theorem State.cycleFault_of_operands {i : Instr} {rest : List Byte} (hc : operandCount m ≤ s.cfg.memSize - (s.pc + 1))
    (hd : decodeOperands m [s.mem.read (s.pc + 1), s.mem.read (s.pc + 2)] = .ok (i, rest)) :
    s.cycleFault = firstFault (faultConditions i s) := by
  have h1 : ¬ (1 ≤ operandCount m ∧ s.cfg.memSize ≤ s.pc + 1) := by omega
  have h2 : ¬ (2 ≤ operandCount m ∧ s.cfg.memSize ≤ s.pc + 2) := by omega
  simp only [State.cycleFault, if_neg (Nat.not_le.2 h), hl, if_neg h1, if_neg h2, hd]

end

/-- What the cycle of a RUNNING engine does: it takes the first fault of the list, with the opcode latched unless the
fetch itself is out of bounds, or the list holds none and the decoded instruction completes. -/
theorem step_running_cases {s : State} (hw : s.cfg.wf = true) (hr : s.status = .running) :
    (∃ f, s.cycleFault = some f ∧ s.cfg.memSize ≤ s.pc ∧ step s = .next (s.raised f)) ∨
      (∃ f, s.cycleFault = some f ∧ s.pc < s.cfg.memSize ∧
        step s = .next ((s.latchIr (s.mem.read s.pc)).raised f)) ∨
      (s.cycleFault = none ∧ ∃ i rest t, decode s.cfg s.window = .ok (i, rest) ∧ step s = .next t ∧
        Completes i (s.latchIr (s.mem.read s.pc)) t) := by
  rcases Nat.lt_or_ge s.pc s.cfg.memSize with h | h
  case inr =>
    exact .inl ⟨_, State.cycleFault_of_outside h, h, step_of_noOpcode hw hr (decode_window_of_outside h)⟩
  refine .inr ?_
  cases hl : lookup s.cfg (s.mem.read s.pc) with
  | none =>
    exact .inl ⟨_, State.cycleFault_of_lookup_eq_none h hl, h,
      step_of_invalidOpcode hw hr (decode_window_of_lookup_eq_none h hl)⟩
  | some m =>
    have hd := decode_window_of_lookup_eq_some h hl
    rcases decodeOperands_take_cases m (s.mem.read (s.pc + 1)) (s.mem.read (s.pc + 2))
        (s.cfg.memSize - (s.pc + 1)) with ⟨hc, hn, e⟩ | ⟨hc, hn, e⟩ | ⟨hc, i, rest, rest', e, e'⟩
    · exact .inl ⟨_, State.cycleFault_of_missing_first h hl hc (by omega), h,
        step_of_missingOperand hw hr (hd.trans e)⟩
    · exact .inl ⟨_, State.cycleFault_of_missing_second h hl hc (by omega) (by omega), h,
        step_of_missingOperand hw hr (hd.trans e)⟩
    · have hstep := step_of_decode hw hr (hd.trans e)
      have hcycle : s.cycleFault = firstFault (faultConditions i (s.latchIr (s.mem.read s.pc))) :=
        State.cycleFault_of_operands h hl hc e'
      cases hf : s.cycleFault with
      | some f => exact .inl ⟨f, rfl, h, hstep.trans (exec_of_firstFault_eq_some (hcycle.symm.trans hf))⟩
      | none =>
        obtain ⟨t, ht, hcomp⟩ := exec_of_firstFault_eq_none (hcycle.symm.trans hf)
        exact .inr ⟨rfl, i, rest, t, hd.trans e, hstep.trans ht, hcomp⟩

end Sys2Proof.Machine
end

section
/-! PROOFS. The control state machine and the invalid opcode (40_fetch_decode_execute.md R80, R83). -/

namespace Sys2Proof.Machine

/-- HLT halts with its cause; every other completion keeps the run state. -/
theorem Completes.status_eq {i : Instr} {s t : State} (h : Completes i s t) :
    t.status = if i = .hlt then .halted .hlt else s.status := by
  cases h <;> rfl

/-- Settles O7: a RUNNING cycle takes the fault of the priority list or completes the instruction at `pc`, which halts
exactly when it is HLT; a step in HALTED and reset are fixed by their definitions. -/
theorem controlStateMachineTransitions : Obligations.ControlStateMachineTransitions := by
  refine fun s hw => ⟨fun hr => ?_, fun c hs => step_halted hw hs, rfl, rfl, rfl⟩
  obtain ⟨f, hf, -, e⟩ | ⟨f, hf, -, e⟩ | ⟨hf, i, rest, t, hd, e, hc⟩ := step_running_cases hw hr
  · exact ⟨_, e, by simp [hf]⟩
  · exact ⟨_, e, by simp [hf]⟩
  · refine ⟨t, e, ?_⟩
    rw [hc.status_eq, State.latchIr_status, hr, Ne, read_pc_eq_hlt_iff hw hd]
    by_cases hi : i = .hlt <;> simp [hf, hi]

/-- Settles O10: the fetch latches the byte in `ir`, and the fault writes the run state alone. -/
theorem invalidOpcodeHaltsTheEngine : Obligations.InvalidOpcodeHaltsTheEngine := fun _ hw hr h hl =>
  ⟨_, step_of_invalidOpcode hw hr (decode_window_of_lookup_eq_none h hl), rfl, rfl, rfl, rfl, rfl, rfl, rfl⟩

end Sys2Proof.Machine
end

section
/-! PROOFS. The ALU (41_alu.md R101). -/

namespace Sys2Proof.Machine

/-- MUL is the machine product of bytes. -/
@[simp] theorem aluApply_mul (a b : Byte) : aluApply .mul a b = some (a * b) :=
  congrArg some (BitVec.eq_of_toNat_eq (by simp))

/-- Settles O45: MUL's value is the machine product, whose number is the product reduced modulo 256. -/
theorem aluMulIsTheProductModulo256 : Obligations.AluMulIsTheProductModulo256 := fun a b =>
  ⟨a * b, aluApply_mul a b, BitVec.toNat_mul a b⟩

end Sys2Proof.Machine
end

section
/-! PROOFS. The cycle of HLT (42_register_ops.md R111). -/

namespace Sys2Proof.Machine

/-- A cycle at HLT's opcode latches it and halts: the decoder takes no operand byte, so nothing after it matters. -/
theorem step_at_hlt {s : State} (hw : s.cfg.wf = true) (hr : s.status = .running) (hm : s.pc < s.cfg.memSize)
    (hop : s.mem.read s.pc = s.cfg.opc.hlt) : step s = .next ((s.latchIr s.cfg.opc.hlt).halt .hlt) := by
  have hl : lookup s.cfg (s.mem.read s.pc) = some .hlt :=
    (lookup_eq_some_iff hw).2 ⟨hop, mem_presentMnemonics_iff.2 nofun⟩
  have hstep := step_of_decode hw hr (decode_window_of_lookup_eq_some hm hl)
  rw [hop] at hstep
  exact hstep

/-- Settles O13: the cycle is the same equation over every memory that holds HLT's opcode at `pc`, and the state it
leaves is HALTED, where a step changes nothing. -/
theorem hltCycleHaltsAtItsAddress : Obligations.HltCycleHaltsAtItsAddress := by
  intro s hw hr hm hop
  refine ⟨_, step_at_hlt hw hr hm hop, rfl, rfl, rfl, rfl, rfl, rfl, rfl, ?lastCycle, fun m hread => ?otherMemory⟩
  case lastCycle => exact step_halted (c := .hlt) hw rfl
  case otherMemory => exact step_at_hlt (s := { s with mem := m }) hw hr hm (hread.trans hop)

end Sys2Proof.Machine
end

section
/-! PROOFS. The stack faults and their policy (60_exceptions.md R175). -/

namespace Sys2Proof.Machine

theorem pushesByte_iff {i : Instr} : pushesByte i = true ↔ (∃ r, i = .push r) ∨ ∃ r, i = .call r := by
  cases i <;> simp [pushesByte]

theorem popsByte_iff {i : Instr} : popsByte i = true ↔ (∃ r, i = .pop r) ∨ i = .ret := by
  cases i <;> simp [popsByte]

/-- The first fault of a list stands in it with a condition that holds. -/
theorem mem_of_firstFault_eq_some {cs : List (Bool × FaultInfo)} {f : FaultInfo} (h : firstFault cs = some f) :
    (true, f) ∈ cs := by
  induction cs with
  | nil => cases h
  | cons c cs ih =>
    obtain ⟨b, g⟩ := c
    cases b with
    | true => cases h; exact List.mem_cons_self
    | false => exact List.mem_cons_of_mem _ (ih h)

/-- An instruction that halts a RUNNING engine with a fault took that fault from its list of fault conditions. -/
theorem mem_faultConditions_of_exec {s t : State} {i : Instr} {f : FaultRecord} (hr : s.status = .running)
    (h : exec i s = .next t) (ht : t.status = .halted (.fault f)) : (true, f.info) ∈ faultConditions i s := by
  cases hf : firstFault (faultConditions i s) with
  | some g =>
    cases h.symm.trans (exec_of_firstFault_eq_some hf)
    cases ht
    exact mem_of_firstFault_eq_some hf
  | none =>
    obtain ⟨u, hu, hc⟩ := exec_of_firstFault_eq_none hf
    cases h.symm.trans hu
    rw [hc.status_eq, hr] at ht
    split at ht <;> cases ht

/-- The list's one entry for StackOverflow is the check of a push. -/
theorem stackOverflow_mem_faultConditions {i : Instr} {s : State} {v : Byte} :
    (true, .stackOverflow v) ∈ faultConditions i s ↔
      pushesByte i = true ∧ s.cfg.stackCheck = .fault ∧ s.sp = 0 ∧ v = s.sp := by
  simp [faultConditions, and_assoc]

/-- The list's one entry for StackUnderflow is the check of a pop. -/
theorem stackUnderflow_mem_faultConditions {i : Instr} {s : State} {v : Byte} :
    (true, .stackUnderflow v) ∈ faultConditions i s ↔
      popsByte i = true ∧ s.cfg.stackCheck = .fault ∧ s.cfg.spInit.toNat ≤ s.sp.toNat ∧ v = s.sp := by
  simp [faultConditions, and_assoc]

/-- Settles O28: a fault an instruction raises stands in its list of fault conditions with its condition true, and each
stack fault has one entry there, whose condition is the policy with its check. -/
theorem stackFaultsOnlyUnderTheFaultPolicy : Obligations.StackFaultsOnlyUnderTheFaultPolicy := by
  refine fun s t i a v hr h => ⟨fun ht => ?overflow, fun ht => ?underflow⟩
  case overflow =>
    obtain ⟨hi, hc, h0, hv⟩ := stackOverflow_mem_faultConditions.1 (mem_faultConditions_of_exec hr h ht)
    exact ⟨hc, h0, hv, pushesByte_iff.1 hi⟩
  case underflow =>
    obtain ⟨hi, hc, hle, hv⟩ := stackUnderflow_mem_faultConditions.1 (mem_faultConditions_of_exec hr h ht)
    exact ⟨hc, hle, hv, popsByte_iff.1 hi⟩

end Sys2Proof.Machine
end

section
/-! SUPPORT. The converses of the inversions of an instruction and of a cycle: an instruction whose checks pass answers
the state it writes, one whose list holds a fault raises it, and a cycle at the bytes of an instruction runs it. -/

namespace Sys2Proof.Machine

/-! ### Registers -/

theorem exists_eq_regByte {r : Byte} (h : r.toNat < 8) : ∃ i, r = regByte i :=
  ⟨⟨r.toNat, h⟩, BitVec.eq_of_toNat_eq (regByte_toNat ⟨r.toNat, h⟩).symm⟩

/-- The register a legal operand byte names, as the statements write it. -/
@[simp] theorem fin_mk_regByte (i : Fin 8) (h : (regByte i).toNat < 8) : (⟨(regByte i).toNat, h⟩ : Fin 8) = i :=
  Fin.ext (regByte_toNat i)

theorem State.readReg_writeReg (s : State) (i j : Fin 8) (v : Byte) :
    (s.writeReg i v).readReg j = if j = i then v else s.readReg j := by
  split
  · subst j; exact State.readReg_writeReg_same s i v
  · exact State.readReg_writeReg_ne s v ‹_›

theorem State.readReg_setSp (s : State) (v : Byte) (j : Fin 8) :
    (s.setSp v).readReg j = if j = s.cfg.spIndex then v else s.readReg j :=
  State.readReg_writeReg s _ j v

/-! ### An instruction -/

theorem withReturnByte_of_le {s : State} {n : Nat} {go : Byte → Answer} (h : n ≤ 255) :
    withReturnByte s n go = go (BitVec.ofNat 8 n) := if_neg (Nat.not_lt.2 h)

/-- An instruction whose checks pass answers the state its meaning writes. -/
theorem Completes.exec_eq {i : Instr} {s t : State} (h : Completes i s t) : exec i s = .next t := by
  cases h with
  | hlt => rfl
  | ldi _ j imm => simp only [exec, execLdi, withReg_regByte]
  | mul _ a b => simp only [exec, execMul, withReg_regByte, withAlu_mul]
  | prn _ j => simp only [exec, execPrn, withReg_regByte]
  | push _ j room inside =>
    simp only [exec, execPush, withReg_regByte, withStackRoom_of_room room, withinMemory_of_lt inside]
  | pop _ j item inside => simp only [exec, execPop, withReg_regByte, withStackTop_of_item item inside]
  | call _ j room fits inside =>
    simp only [exec, execCall, withReg_regByte, withStackRoom_of_room room, withReturnByte_of_le fits,
      withinMemory_of_lt inside]
  | ret _ item inside => simp only [exec, execRet, withStackTop_of_item item inside]
  | jmp _ j => simp only [exec, execJmp, withReg_regByte]

/-- Every instruction answers a next state. -/
theorem exec_answers_next (i : Instr) (s : State) : ∃ t, exec i s = .next t := by
  cases hf : firstFault (faultConditions i s) with
  | some f => exact ⟨_, exec_of_firstFault_eq_some hf⟩
  | none => exact (exec_of_firstFault_eq_none hf).imp fun _ h => h.1

/-- No completion touches `ir`. -/
theorem Completes.ir_eq {i : Instr} {s t : State} (h : Completes i s t) : t.ir = s.ir := by
  cases h <;> rfl

/-- An instruction that completes in a RUNNING engine leaves no fault. -/
theorem Completes.status_ne_fault {i : Instr} {s t : State} {f : FaultRecord} (h : Completes i s t)
    (hr : s.status = .running) : t.status ≠ .halted (.fault f) := by
  rw [h.status_eq, hr]
  split <;> nofun

/-! ### A cycle -/

theorem wf_of_step_eq_next {s t : State} (h : step s = .next t) : s.cfg.wf = true := by
  rcases step_cases s with ⟨-, e⟩ | ⟨hw, -, -⟩ | ⟨hw, -, -⟩
  · cases e.symm.trans h
  · exact hw
  · exact hw

/-- A cycle whose fetch is inside memory latches the opcode and raises the first fault of the list. -/
theorem step_of_cycleFault {s : State} {f : FaultInfo} (hw : s.cfg.wf = true) (hr : s.status = .running)
    (h : s.pc < s.cfg.memSize) (hf : s.cycleFault = some f) :
    step s = .next ((s.latchIr (s.mem.read s.pc)).raised f) := by
  obtain ⟨g, -, hout, -⟩ | ⟨g, hg, -, e⟩ | ⟨hnone, -⟩ := step_running_cases hw hr
  · omega
  · cases hf.symm.trans hg
    exact e
  · cases hf.symm.trans hnone

/-- Bytes that stand in memory at `a` are the head of what is read from there. -/
theorem bytesFrom_eq_append {m : Memory} {size : Nat} (bs : List Byte) {a n : Nat} (hn : bs.length ≤ n)
    (hsize : a + bs.length ≤ size) (hread : ∀ (k : Nat) (h : k < bs.length), m.read (a + k) = bs[k]) :
    ∃ rest, bytesFrom m size a n = bs ++ rest := by
  induction bs generalizing a n with
  | nil => exact ⟨_, rfl⟩
  | cons b bs ih =>
    rw [List.length_cons] at hn hsize
    obtain ⟨n, rfl⟩ : ∃ k, n = k + 1 := ⟨n - 1, by omega⟩
    have htail (k : Nat) (h : k < bs.length) : m.read (a + 1 + k) = bs[k] := by
      rw [Nat.add_assoc, Nat.add_comm 1 k]
      exact hread (k + 1) (Nat.succ_lt_succ h)
    obtain ⟨rest, e⟩ := ih (a := a + 1) (n := n) (by omega) (by omega) htail
    have hb : m.read a = b := hread 0 (Nat.succ_pos _)
    exact ⟨rest, by rw [bytesFrom_succ, if_pos (by omega), e, hb, List.cons_append]⟩

theorem length_encode (opc : Opc) (i : Instr) : (encode opc i).length = i.length := by
  cases i <;> rfl

/-- No instruction is longer than the fetch window. -/
theorem length_le_maxLength (i : Instr) : i.length ≤ maxLength := by
  cases i <;> simp [Instr.length, Instr.mnemonic, operandCount, maxLength]

/-- The byte at `pc` is the opcode of the instruction that decodes there. -/
theorem read_pc_of_decode {s : State} {i : Instr} {rest : List Byte} (hd : decode s.cfg s.window = .ok (i, rest)) :
    s.mem.read s.pc = opcodeOf s.cfg.opc i.mnemonic := by
  obtain ⟨hbytes, -⟩ := decode_eq_ok hd
  rw [encode_eq_cons, State.window_eq] at hbytes
  split at hbytes
  · exact (List.cons.inj hbytes).1
  · cases hbytes

/-- A cycle at the bytes of an instruction the table holds is `exec` of it, the opcode latched. -/
theorem step_at_encoding {s : State} {i : Instr} (hw : s.cfg.wf = true) (hr : s.status = .running)
    (hp : i.present s.cfg = true) (hm : s.pc + i.length ≤ s.cfg.memSize)
    (hread : ∀ (k : Nat) (h : k < (encode s.cfg.opc i).length), s.mem.read (s.pc + k) = (encode s.cfg.opc i)[k]) :
    step s = exec i (s.latchIr (opcodeOf s.cfg.opc i.mnemonic)) := by
  obtain ⟨rest, hwin⟩ := bytesFrom_eq_append (m := s.mem) (size := s.cfg.memSize) (encode s.cfg.opc i)
    (n := maxLength) (by rw [length_encode]; exact length_le_maxLength i) (by rwa [length_encode]) hread
  have hd : decode s.cfg s.window = .ok (i, rest) :=
    (congrArg (decode s.cfg) hwin).trans (decode_encode_append hw hp rest)
  rw [← read_pc_of_decode hd]
  exact step_of_decode hw hr hd

end Sys2Proof.Machine
end

section
/-! PROOFS. The decoder and the encoder (30_encoding.md R61 to R70). -/

namespace Sys2Proof

/-- Settles O1: every mnemonic the table holds is found under its opcode, and its operands are the bytes after it. -/
theorem decodeEncodeRoundTrip : Obligations.DecodeEncodeRoundTrip := fun _ _ rest hw hi =>
  decode_encode_append hw hi rest

/-- Settles O2: lookup answers only an entry of the table under its own opcode, and the operands are whole bytes. -/
theorem decodedBytesAreTheEncoding : Obligations.DecodedBytesAreTheEncoding := fun _ _ _ _ h => decode_eq_ok h

/-- Settles O3, by running the decoder on each word. -/
theorem writtenOutWordsDecode : Obligations.WrittenOutWordsDecode := by
  unfold Obligations.WrittenOutWordsDecode
  decide

theorem distinct_iff_nodup (bs : List Byte) : distinct bs = true ↔ bs.Nodup := by
  induction bs with
  | nil => simp [distinct]
  | cons b bs ih => simp [distinct, ih]

/-- A configuration that is legal with RET and JMP in the table is legal without them. -/
theorem Config.wf_of_implemented {cfg : Config} (h : ({ cfg with retJmp := .implemented } : Config).wf = true) :
    cfg.wf = true := by
  cases hrj : cfg.retJmp with
  | implemented =>
    obtain ⟨memSize, spIndex, spInit, opc, stackCheck, retJmp⟩ := cfg
    cases hrj
    exact h
  | omitted =>
    simp only [Config.wf, Bool.and_eq_true, decide_eq_true_eq, distinct_iff_nodup] at h ⊢
    obtain ⟨hm, hd⟩ := h
    refine ⟨hm, hd.sublist ?_⟩
    rw [dispatchTable, hrj]
    exact List.sublist_append_left _ [cfg.opc.ret, cfg.opc.jmp]

/-- Under Omit the bytes of RET and JMP have no entry, where the map with them is injective. -/
theorem lookup_eq_none_of_omitted {cfg : Config} {m : Mnemonic}
    (hw : ({ cfg with retJmp := .implemented } : Config).wf = true) (hrj : cfg.retJmp = .omitted)
    (hm : m = .ret ∨ m = .jmp) : lookup cfg (opcodeOf cfg.opc m) = none := by
  refine (lookup_eq_none_iff (Config.wf_of_implemented hw)).2 fun k hk e => ?_
  rw [mem_presentMnemonics_iff, hrj] at hk
  have hself := lookup_opcodeOf (m := m) hw (mem_presentMnemonics_iff.2 fun _ => rfl)
  have hother := lookup_opcodeOf (m := k) hw (mem_presentMnemonics_iff.2 fun _ => rfl)
  have hkm : k = m := Option.some.inj (hother.symm.trans ((congrArg _ e.symm).trans hself))
  cases hk (hkm ▸ hm)

end Sys2Proof
end

section
/-! PROOFS. The cycle: fetch, operands, and the instruction at `pc` (40_fetch_decode_execute.md R81 to R87). -/

namespace Sys2Proof.Machine

/-- Settles O6: the window of the fetch begins with the encoding, which decodes to the instruction. -/
theorem stepRunsTheDecodedInstruction : Obligations.StepRunsTheDecodedInstruction := fun _ _ => step_at_encoding

/-- Settles O5: under Omit no entry has the opcode, and under Implement the bytes at `pc` are the encoding. -/
theorem retJmpParameterSelects : Obligations.RetJmpParameterSelects := by
  intro s m hm hw hr hpc hop
  have hwf := Config.wf_of_implemented hw
  have hpresent (hrj : s.cfg.retJmp = .implemented) (k : Mnemonic) : k ∈ presentMnemonics s.cfg.retJmp :=
    mem_presentMnemonics_iff.2 fun _ => hrj
  refine ⟨fun hrj => ?omitted, fun hrj e => ?implementedRet, fun hrj e hpc1 => ?implementedJmp⟩
  case omitted =>
    have hl := lookup_eq_none_of_omitted hw hrj hm
    rw [← hop] at hl
    exact step_of_invalidOpcode hwf hr (decode_window_of_lookup_eq_none hpc hl)
  case implementedRet =>
    subst e
    rw [hop]
    refine step_at_encoding (i := .ret) hwf hr ((Instr.present_iff _ _).2 (hpresent hrj _)) hpc fun k hk => ?_
    obtain rfl : k = 0 := Nat.lt_one_iff.1 hk
    exact hop
  case implementedJmp =>
    subst e
    rw [hop]
    refine step_at_encoding (i := .jmp _) hwf hr ((Instr.present_iff _ _).2 (hpresent hrj _)) hpc1 fun k hk => ?_
    match k, hk with
    | 0, _ => exact hop
    | 1, _ => rfl

/-- Settles O8: in HALTED a step does nothing, and reset is a construction. -/
theorem haltedEngineDoesNothing : Obligations.HaltedEngineDoesNothing := fun _ _ hw hs => ⟨step_halted hw hs, rfl⟩

/-- Settles O9: inside memory the cycle raises a fault after latching the opcode or completes, which leaves `ir`. -/
theorem fetchLatchesTheOpcodeOrFaults : Obligations.FetchLatchesTheOpcodeOrFaults := by
  refine fun s hw hr => ⟨fun h => step_of_noOpcode hw hr (decode_window_of_outside h), fun h => ?_⟩
  obtain ⟨f, -, hout, -⟩ | ⟨f, -, -, e⟩ | ⟨-, i, rest, t, -, e, hc⟩ := step_running_cases hw hr
  · omega
  · exact ⟨_, e, rfl⟩
  · exact ⟨t, e, hc.ir_eq⟩

/-- Settles O11: the missing operand is the first fault of the cycle's list. -/
theorem operandBeyondMemoryFaults : Obligations.OperandBeyondMemoryFaults := fun _ _ hw hr h hl =>
  ⟨fun hc hm => step_of_cycleFault hw hr h (State.cycleFault_of_missing_first h hl hc hm.ge),
    fun hc hm => step_of_cycleFault hw hr h (State.cycleFault_of_missing_second h hl hc (by omega) hm.ge)⟩

/-- Settles O31: the cycle raises the list's first fault, and completes, without a fault, when the list holds none. -/
theorem cycleRaisesTheFirstFaultInPriorityOrder : Obligations.CycleRaisesTheFirstFaultInPriorityOrder := by
  intro s hw hr
  obtain ⟨f, hf, -, e⟩ | ⟨f, hf, -, e⟩ | ⟨hf, i, rest, t, -, e, hc⟩ := step_running_cases hw hr
  · exact ⟨fun g hg => ⟨_, e, by cases hf.symm.trans hg; rfl⟩, fun hnone => by cases hf.symm.trans hnone⟩
  · exact ⟨fun g hg => ⟨_, e, by cases hf.symm.trans hg; rfl⟩, fun hnone => by cases hf.symm.trans hnone⟩
  · refine ⟨fun g hg => (by cases hf.symm.trans hg), fun _ => ⟨t, e, fun g => ?_⟩⟩
    exact hc.status_ne_fault hr

/-- Settles O32: a cycle that ends in a fault raised it, before or after latching the opcode. -/
theorem faultsArePrecise : Obligations.FaultsArePrecise := by
  intro s t f hr hstep ht
  obtain ⟨g, -, hout, e⟩ | ⟨g, -, hin, e⟩ | ⟨-, i, rest, u, -, e, hc⟩ :=
    step_running_cases (wf_of_step_eq_next hstep) hr <;> cases hstep.symm.trans e
  · cases ht
    rw [if_neg (Nat.not_lt.2 hout)]
    exact ⟨rfl, rfl⟩
  · cases ht
    rw [if_pos hin]
    exact ⟨rfl, rfl⟩
  · exact absurd ht (hc.status_ne_fault hr)

/-- Settles O33: each kind has its own code. -/
theorem faultCodesTellTheKind : Obligations.FaultCodesTellTheKind := by
  rintro ⟨addr, info⟩
  rw [FaultRecord.code_eq]
  cases info <;> simp [FaultInfo.kind, FaultKind.code]

/-- Settles O36: an illegal configuration is the one refusal of a step. -/
theorem everyStepAnswersANextState : Obligations.EveryStepAnswersANextState := by
  intro s hw
  rcases step_cases s with ⟨hnw, -⟩ | ⟨-, -, e⟩ | ⟨-, -, ⟨i, s1, -, e⟩ | ⟨t, -, e⟩⟩
  · cases hw.symm.trans hnw
  · exact ⟨s, e⟩
  · rw [e]; exact exec_answers_next i s1
  · exact ⟨t, e⟩

/-- Settles O37: no step writes the configuration, and the step of an engine that does not run is the same state. -/
theorem configurationAndHaltAreFixed : Obligations.ConfigurationAndHaltAreFixed := by
  refine fun s t h => ⟨step_cfg h, fun hn => ?_⟩
  obtain ⟨-, e⟩ | ⟨hr, -⟩ := step_eq_next h
  · exact e
  · exact absurd hr hn

end Sys2Proof.Machine
end

section
/-! SUPPORT. What a completed instruction writes, field by field: registers and SP, memory, `pc`. -/

namespace Sys2Proof.Machine

/-! ### Registers and the stack pointer -/

/-- The register operand an instruction names as its destination: of LDI, MUL and POP (10_state.md R23). -/
def destination : Instr → Option Byte
  | .ldi r _ => some r
  | .mul rA _ => some rA
  | .pop r => some r
  | _ => none

theorem destination_eq_some_iff {i : Instr} {r : Byte} :
    destination i = some r ↔ (∃ imm, i = .ldi r imm) ∨ (∃ rB, i = .mul r rB) ∨ i = .pop r := by
  cases i <;> simp [destination]

theorem ne_of_val_ne_regByte {i j : Fin 8} (h : j.val ≠ (regByte i).toNat) : j ≠ i := by
  rintro rfl
  exact h (regByte_toNat j).symm

/-- A completed instruction writes no register but its destination, and SP when it pushes or pops. -/
theorem Completes.readReg_eq {i : Instr} {s t : State} (h : Completes i s t) {j : Fin 8}
    (hdest : ∀ r, destination i = some r → j.val ≠ r.toNat)
    (hstack : j = s.cfg.spIndex → pushesByte i = false ∧ popsByte i = false) : t.readReg j = s.readReg j := by
  cases h with
  | hlt | prn | jmp => rfl
  | ldi _ k imm => exact State.readReg_writeReg_ne s _ (ne_of_val_ne_regByte (hdest _ rfl))
  | mul _ a b => exact State.readReg_writeReg_ne s _ (ne_of_val_ne_regByte (hdest _ rfl))
  | push _ k room inside => exact State.readReg_setSp_ne s _ fun e => nomatch (hstack e).1
  | call _ k room fits inside => exact State.readReg_setSp_ne s _ fun e => nomatch (hstack e).1
  | ret _ item inside => exact State.readReg_setSp_ne s _ fun e => nomatch (hstack e).2
  | pop _ k item inside =>
    exact (State.readReg_setSp_ne (s.writeReg k _) _ fun e => nomatch (hstack e).2).trans
      (State.readReg_writeReg_ne s _ (ne_of_val_ne_regByte (hdest _ rfl)))

/-- The instruction writes SP as its destination, past the stack checks. -/
def WritesSp (i : Instr) (s : State) : Prop := ∃ r, destination i = some r ∧ r.toNat = s.cfg.spIndex.val

/-- What a completed instruction does to SP: leave it, move it by one after its stack check, or write it as its
destination. -/
theorem Completes.sp_cases {i : Instr} {s t : State} (h : Completes i s t) :
    WritesSp i s ∨ (pushesByte i = false ∧ popsByte i = false ∧ t.sp = s.sp) ∨
      (pushesByte i = true ∧ (s.cfg.stackCheck = .wrap ∨ s.sp ≠ 0) ∧ t.sp = s.sp - 1) ∨
      (popsByte i = true ∧ (s.cfg.stackCheck = .wrap ∨ s.sp.toNat < s.cfg.spInit.toNat) ∧ t.sp = s.sp + 1) := by
  by_cases hw : WritesSp i s
  · exact .inl hw
  refine .inr ?_
  cases h with
  | push _ j room inside => exact .inr (.inl ⟨rfl, room, by simp⟩)
  | call _ j room fits inside => exact .inr (.inl ⟨rfl, room, by simp⟩)
  | ret _ item inside => exact .inr (.inr ⟨rfl, item, by simp [spInc]⟩)
  | pop _ j item inside =>
    have hj : j ≠ s.cfg.spIndex := fun e => hw ⟨_, rfl, by rw [regByte_toNat, e]⟩
    exact .inr (.inr ⟨rfl, item, by rw [State.sp_setPc, State.sp_setSp, spInc, State.sp_writeReg_ne s _ hj]⟩)
  | hlt | prn | jmp => exact .inl ⟨rfl, rfl, rfl⟩
  | ldi _ j imm =>
    exact .inl ⟨rfl, rfl, State.sp_writeReg_ne s _ fun e => hw ⟨_, rfl, by rw [regByte_toNat, e]⟩⟩
  | mul _ a b =>
    exact .inl ⟨rfl, rfl, State.sp_writeReg_ne s _ fun e => hw ⟨_, rfl, by rw [regByte_toNat, e]⟩⟩

/-! ### Memory -/

/-- A completed instruction leaves memory as it is, unless it pushes: then it makes its one write request, inside
memory, at the decremented SP. -/
theorem Completes.mem_cases {i : Instr} {s t : State} (h : Completes i s t) :
    (pushesByte i = false ∧ (∀ a v, Request.write a v ∉ dataAccess i s) ∧ t.mem = s.mem) ∨
      (pushesByte i = true ∧ (s.sp - 1).toNat < s.cfg.memSize ∧
        ∃ v, dataAccess i s = [.write (s.sp - 1).toNat v] ∧ t.mem = s.mem.write (s.sp - 1).toNat v) := by
  cases h with
  | push _ j room inside => exact .inr ⟨rfl, inside, _, by rw [dataAccess, regIndex_regByte], rfl⟩
  | call _ j room fits inside => exact .inr ⟨rfl, inside, _, rfl, rfl⟩
  | pop | ret => exact .inl ⟨rfl, by simp [dataAccess], rfl⟩
  | hlt | ldi | mul | prn | jmp => exact .inl ⟨rfl, by simp [dataAccess], rfl⟩

theorem Completes.mem_eq {i : Instr} {s t : State} (h : Completes i s t) (hi : pushesByte i = false) :
    t.mem = s.mem := by
  obtain ⟨-, -, hm⟩ | ⟨hp, -⟩ := h.mem_cases
  · exact hm
  · cases hi.symm.trans hp

/-- No cell but the one at `SP - 1` is written. -/
theorem Completes.read_mem_of_ne {i : Instr} {s t : State} {a : Nat} (h : Completes i s t)
    (ha : a ≠ (s.sp - 1).toNat) : t.mem.read a = s.mem.read a := by
  obtain ⟨-, -, hm⟩ | ⟨-, -, v, -, hm⟩ := h.mem_cases
  · rw [hm]
  · rw [hm, Memory.read_write_ne _ _ ha]

/-! ### The program counter -/

/-- Where a completed instruction leaves `pc`: at itself, after itself, or at the address a byte holds. -/
theorem Completes.pc_cases {i : Instr} {s t : State} (h : Completes i s t) :
    t.pc = s.pc ∨ t.pc = s.pc + i.length ∨ ∃ b : Byte, t.pc = b.toNat := by
  cases h with
  | hlt => exact .inl rfl
  | ldi | mul | prn | push | pop => exact .inr (.inl rfl)
  | call | ret | jmp => exact .inr (.inr ⟨_, rfl⟩)

end Sys2Proof.Machine
end

section
/-! PROOFS. What each instruction does when it completes (42_register_ops.md, 43_stack.md, 44_control_transfer.md). -/

namespace Sys2Proof.Machine

/-- Settles O12: HLT has no check. -/
theorem hltCompletes : Obligations.HltCompletes := fun s => ⟨s.halt .hlt, rfl, rfl, rfl, rfl, rfl, rfl, rfl, rfl⟩

/-- Settles O14: the register check passes, and the meaning writes the register and `pc`. -/
theorem ldiCompletes : Obligations.LdiCompletes := by
  intro s r imm h
  obtain ⟨i, rfl⟩ := exists_eq_regByte h
  have hc := Completes.ldi s i imm
  refine ⟨_, hc.exec_eq, by simp [immediate], rfl, fun j hj => ?_, fun _ => rfl, rfl, rfl, rfl, rfl⟩
  exact hc.readReg_eq (by rintro _ ⟨⟩; exact hj) fun _ => ⟨rfl, rfl⟩

/-- Settles O15: both register checks pass, and the destination takes the machine product of the old values. -/
theorem mulCompletes : Obligations.MulCompletes := by
  intro s rA rB hA hB
  obtain ⟨a, rfl⟩ := exists_eq_regByte hA
  obtain ⟨b, rfl⟩ := exists_eq_regByte hB
  have hc := Completes.mul s a b
  refine ⟨_, hc.exec_eq, by simp [BitVec.toNat_mul], rfl, fun j hj => ?_, fun _ => rfl, rfl, rfl, rfl, rfl⟩
  exact hc.readReg_eq (by rintro _ ⟨⟩; exact hj) fun _ => ⟨rfl, rfl⟩

/-- Settles O16: the register check passes, and the meaning appends the value to the trace. -/
theorem prnCompletes : Obligations.PrnCompletes := fun _ _ h =>
  ⟨_, exec_prn_of_lt h, rfl, rfl, fun _ => rfl, fun _ => rfl, rfl, rfl, rfl⟩

/-- Settles O17: the checks pass, and the register is read after the update of SP. -/
theorem pushCompletes : Obligations.PushCompletes := by
  intro s r h room inside
  obtain ⟨i, rfl⟩ := exists_eq_regByte h
  have hc := Completes.push s i room inside
  refine ⟨_, hc.exec_eq, by simp, rfl, ?cell, fun j hj => ?regs, fun a ha => hc.read_mem_of_ne ha,
    rfl, rfl, rfl, rfl⟩
  case cell => simp [State.readReg_setSp, regByte_toNat, Fin.ext_iff, eq_comm]
  case regs => exact hc.readReg_eq nofun fun e => absurd e hj

/-- Settles O18: the checks pass, and SP is read after the write of the register. -/
theorem popCompletes : Obligations.PopCompletes := by
  intro s r h item inside
  obtain ⟨i, rfl⟩ := exists_eq_regByte h
  have hc := Completes.pop s i item inside
  refine ⟨_, hc.exec_eq, fun hne => ?other, fun heq => ?sp, rfl, fun j hsp hj => ?regs, fun _ => rfl,
    rfl, rfl, rfl, rfl⟩
  case other =>
    have hi : i ≠ s.cfg.spIndex := fun e => hne (by rw [regByte_toNat, e])
    simp [State.readReg_setSp, hi, State.sp_writeReg_ne s _ hi, spInc, BitVec.toNat_add]
  case sp =>
    obtain rfl : i = s.cfg.spIndex := Fin.ext ((regByte_toNat i).symm.trans heq)
    simp [spInc, BitVec.toNat_add]
  case regs => exact hc.readReg_eq (by rintro _ ⟨⟩; exact hj) fun e => absurd e hsp

/-- Settles O19: the checks pass, the return address is its own byte, and the target is read after the update of SP. -/
theorem callCompletes : Obligations.CallCompletes := by
  intro s r h room fits inside
  obtain ⟨i, rfl⟩ := exists_eq_regByte h
  have hc := Completes.call s i room fits inside
  have hret : (BitVec.ofNat 8 (s.pc + 2)).toNat = s.pc + 2 := by
    rw [BitVec.toNat_ofNat]
    exact Nat.mod_eq_of_lt (Nat.lt_succ_of_le fits)
  refine ⟨_, hc.exec_eq, by simp, ?cell, ?target, fun j hj => ?regs, fun a ha => hc.read_mem_of_ne ha,
    rfl, rfl, rfl, rfl⟩
  case cell => rw [State.setPc_mem, State.pushed_mem, Memory.read_write_same, hret]
  case target => simp [State.readReg_setSp, regByte_toNat, Fin.ext_iff, eq_comm]
  case regs => exact hc.readReg_eq nofun fun e => absurd e hj

/-- Settles O20: the checks pass, and the byte at SP is the new `pc`. -/
theorem retCompletes : Obligations.RetCompletes := by
  intro s item inside
  have hc := Completes.ret s item inside
  refine ⟨_, hc.exec_eq, rfl, by simp [spInc, BitVec.toNat_add], fun j hj => ?_, fun _ => rfl, rfl, rfl, rfl, rfl⟩
  exact hc.readReg_eq nofun fun e => absurd e hj

/-- Settles O21: the register check passes, and only `pc` is written. -/
theorem jmpCompletes : Obligations.JmpCompletes := fun _ _ h =>
  ⟨_, withReg_of_lt h, rfl, fun _ => rfl, fun _ => rfl, rfl, rfl, rfl, rfl⟩

/-! ### Two instructions in a row -/

/-- From inside the stack region above 0 a push is allowed. -/
theorem room_of_region {s : State}
    (h : s.cfg.stackCheck = .wrap ∨ (1 ≤ s.sp.toNat ∧ s.sp.toNat ≤ s.cfg.spInit.toNat)) :
    s.cfg.stackCheck = .wrap ∨ s.sp ≠ 0 := by
  refine h.imp id fun ⟨hpos, _⟩ h0 => ?_
  rw [h0] at hpos
  exact absurd hpos (by decide)

/-- Such a push leaves SP where a pop is allowed, which takes SP back. -/
theorem item_of_pushed {s t : State} (hcfg : t.cfg = s.cfg) (hsp : t.sp = s.sp - 1)
    (h : s.cfg.stackCheck = .wrap ∨ (1 ≤ s.sp.toNat ∧ s.sp.toNat ≤ s.cfg.spInit.toNat)) :
    (t.cfg.stackCheck = .wrap ∨ t.sp.toNat < t.cfg.spInit.toNat) ∧ (t.sp.toNat + 1) % 256 = s.sp.toNat := by
  have hlt := s.sp.isLt
  rw [hcfg, hsp, State.toNat_sp_sub_one]
  refine ⟨h.imp id fun ⟨hpos, hle⟩ => ?_, ?_⟩ <;> omega

/-- Settles O42: the POP finds the cell the PUSH wrote, at the SP it left. -/
theorem pushThenPopBalances : Obligations.PushThenPopBalances := by
  intro s r p hr hp hrsp hpsp hs inside
  obtain ⟨t, ht, hsp, -, hcell, -, -, -, hstatus, -, hcfg⟩ := pushCompletes s r hr (room_of_region hs) inside
  obtain ⟨item, hback⟩ := item_of_pushed hcfg hsp hs
  obtain ⟨u, hu, hother, -, -, -, -, -, hstatus', -, -⟩ :=
    popCompletes t p hp item (by rw [hsp, hcfg]; exact inside)
  obtain ⟨hval, hsp'⟩ := hother (by rwa [hcfg])
  refine ⟨t, u, ht, hu, ?_, BitVec.eq_of_toNat_eq (hsp'.trans hback), hstatus'.trans hstatus⟩
  rw [hval, hsp, hcell, if_neg (Ne.symm hrsp)]

/-- Settles O43: RET reads the return address CALL pushed. -/
theorem retReturnsAfterCall : Obligations.RetReturnsAfterCall := by
  intro s r hr hs fits inside
  obtain ⟨t, ht, hsp, hcell, -, -, -, -, -, -, hcfg⟩ := callCompletes s r hr (room_of_region hs) fits inside
  refine ⟨t, ht, fun u hucfg husp hutop => ?_⟩
  obtain ⟨item, hback⟩ := item_of_pushed (hucfg.trans hcfg) (husp.trans hsp) hs
  obtain ⟨w, hw, hpc, hsp', -⟩ := retCompletes u item (by rw [husp, hsp, hucfg, hcfg]; exact inside)
  refine ⟨w, hw, ?_, BitVec.eq_of_toNat_eq (hsp'.trans hback)⟩
  rw [hpc, husp, hutop, hsp, hcell]

/-- Settles O44: PRN finds the immediate LDI wrote. -/
theorem ldiThenPrnEmitsTheImmediate : Obligations.LdiThenPrnEmitsTheImmediate := by
  intro s r imm hr
  obtain ⟨t, ht, hval, hpc, -, -, -, -, hout, -⟩ := ldiCompletes s r imm hr
  obtain ⟨u, hu, hout', hpc', -⟩ := prnCompletes t r hr
  exact ⟨t, u, ht, hu, by rw [hout', hout, hval], by rw [hpc', hpc]⟩

end Sys2Proof.Machine
end

section
/-! PROOFS. Frames of the instructions, of completions and of faults alike, and the region of SP. -/

namespace Sys2Proof.Machine

/-- Settles O22: a fault writes the run state alone, and a completion no register but the destination. -/
theorem registerInstructionsFrame : Obligations.RegisterInstructionsFrame := by
  intro s t i dest hi h
  obtain ⟨hdest, hpush, hpop⟩ : destination i = dest ∧ pushesByte i = false ∧ popsByte i = false := by
    rcases hi with ⟨rfl, rfl⟩ | ⟨r, imm, rfl, rfl⟩ | ⟨rA, rB, rfl, rfl⟩ | ⟨r, rfl, rfl⟩ | ⟨r, rfl, rfl⟩ <;>
      exact ⟨rfl, rfl, rfl⟩
  subst hdest
  obtain ⟨f, rfl⟩ | hc := exec_eq_next h
  · exact ⟨fun _ _ => rfl, fun _ => rfl, rfl, rfl, fun _ => rfl⟩
  · refine ⟨fun j hj => hc.readReg_eq hj fun _ => ⟨hpush, hpop⟩, fun a => by rw [hc.mem_eq hpush], hc.ir_eq,
      hc.cfg_eq, fun hprn => ?_⟩
    exact hc.output_eq.resolve_right fun ⟨j, e, _⟩ => hprn _ e

/-- Settles O23: a fault writes the run state alone, and a completion SP and the cell below it. -/
theorem pushingInstructionsFrame : Obligations.PushingInstructionsFrame := by
  intro s t i hi h
  obtain ⟨hdest, hprn⟩ : destination i = none ∧ ∀ j, i ≠ .prn (regByte j) := by
    rcases hi with ⟨r, rfl⟩ | ⟨r, rfl⟩ <;> exact ⟨rfl, nofun⟩
  obtain ⟨f, rfl⟩ | hc := exec_eq_next h
  · exact ⟨fun _ _ => rfl, fun _ _ => rfl, rfl, rfl, rfl⟩
  · refine ⟨fun j hj => ?_, fun a ha => hc.read_mem_of_ne ha, hc.ir_eq, ?_, hc.cfg_eq⟩
    · exact hc.readReg_eq (by simp [hdest]) fun e => absurd e hj
    · exact hc.output_eq.resolve_right fun ⟨j, e, _⟩ => hprn _ e

/-- Settles O24: a fault writes the run state alone, and a completion SP and the destination. -/
theorem poppingInstructionsFrame : Obligations.PoppingInstructionsFrame := by
  intro s t i dest hi h
  obtain ⟨hdest, hpush, hprn⟩ : destination i = dest ∧ pushesByte i = false ∧ ∀ j, i ≠ .prn (regByte j) := by
    rcases hi with ⟨r, rfl, rfl⟩ | ⟨rfl, rfl⟩ <;> exact ⟨rfl, rfl, nofun⟩
  subst hdest
  obtain ⟨f, rfl⟩ | hc := exec_eq_next h
  · exact ⟨fun _ _ _ => rfl, fun _ => rfl, rfl, rfl, rfl⟩
  · refine ⟨fun j hsp hj => hc.readReg_eq hj fun e => absurd e hsp, fun a => by rw [hc.mem_eq hpush], hc.ir_eq, ?_,
      hc.cfg_eq⟩
    exact hc.output_eq.resolve_right fun ⟨j, e, _⟩ => hprn _ e

/-- Settles O41: under Fault the check of a push excludes SP = 0 and that of a pop SP = SP_INIT, a fault leaves SP, and
only a destination is written unchecked. -/
theorem stackPointerStaysInItsRegion : Obligations.StackPointerStaysInItsRegion := by
  intro s t i hcheck hle h
  have hlt := s.sp.isLt
  have hlt' := s.cfg.spInit.isLt
  obtain ⟨f, rfl⟩ | hc := exec_eq_next h
  · exact ⟨fun _ => ⟨hle, .inr rfl⟩, fun _ => ⟨hle, .inr rfl⟩, .inl hle⟩
  obtain ⟨r, hdest, hr⟩ | ⟨hpush, hpop, hsp⟩ | ⟨hpush, room, hsp⟩ | ⟨hpop, item, hsp⟩ := hc.sp_cases
  · refine ⟨fun hi => ?_, fun hi => ?_, .inr ⟨r, hr, destination_eq_some_iff.1 hdest⟩⟩
    · rcases hi with ⟨q, rfl⟩ | ⟨q, rfl⟩ <;> cases hdest
    · rcases hi with ⟨q, rfl, hq⟩ | rfl <;> cases hdest
      exact absurd hr hq
  · rw [hsp]
    exact ⟨fun _ => ⟨hle, .inr rfl⟩, fun _ => ⟨hle, .inr rfl⟩, .inl hle⟩
  · have h0 : s.sp ≠ 0 := room.resolve_left (by simp [hcheck])
    have hpos : s.sp.toNat ≠ 0 := fun e => h0 (BitVec.eq_of_toNat_eq e)
    have hdown : t.sp.toNat + 1 = s.sp.toNat := by
      rw [hsp, State.toNat_sp_sub_one]
      omega
    have hin : t.sp.toNat ≤ s.cfg.spInit.toNat := by omega
    refine ⟨fun _ => ⟨hin, .inl hdown⟩, fun hi => ?_, .inl hin⟩
    rcases hi with ⟨q, rfl, -⟩ | rfl <;> cases hpush
  · have hbelow : s.sp.toNat < s.cfg.spInit.toNat := item.resolve_left (by simp [hcheck])
    have hup : t.sp.toNat = s.sp.toNat + 1 := by
      rw [hsp, BitVec.toNat_add]
      exact Nat.mod_eq_of_lt (by simp; omega)
    have hin : t.sp.toNat ≤ s.cfg.spInit.toNat := by omega
    refine ⟨fun hi => ?_, fun _ => ⟨hin, .inl hup⟩, .inl hin⟩
    rcases hi with ⟨q, rfl⟩ | ⟨q, rfl⟩ <;> cases hpop

end Sys2Proof.Machine
end

section
/-! PROOFS. The faults of an instruction, each at its own check (60_exceptions.md R173 to R178). -/

namespace Sys2Proof.Machine

theorem withStackTop_of_underflow {s : State} {go : Byte → Answer} (hc : s.cfg.stackCheck = .fault)
    (h : s.cfg.spInit.toNat ≤ s.sp.toNat) : withStackTop s go = raise s (.stackUnderflow s.sp) :=
  if_pos ⟨hc, BitVec.le_def.2 h⟩

theorem withStackTop_of_outside {s : State} {go : Byte → Answer}
    (h : s.cfg.stackCheck = .wrap ∨ s.sp.toNat < s.cfg.spInit.toNat) (hm : s.cfg.memSize ≤ s.sp.toNat) :
    withStackTop s go = raise s (.outOfBounds s.sp.toNat .dataRead) := by
  rcases withStackTop_cases s go with ⟨-, hin, -⟩ | ⟨⟨hc, hle⟩, -⟩ | ⟨-, -, e⟩
  · omega
  · rcases h with hw | hlt
    · cases hc.symm.trans hw
    · omega
  · exact e

theorem withReturnByte_of_gt {s : State} {n : Nat} {go : Byte → Answer} (h : 255 < n) :
    withReturnByte s n go = raise s (.returnAddressUnrepresentable n) := if_pos h

/-- RET is its pop, with no register check before it. -/
theorem exec_ret_eq (s : State) :
    exec .ret s = withStackTop s fun v => .next ((s.setSp (spInc s.sp)).setPc v.toNat) := rfl

/-- Settles O25: the check of the first register operand comes first in every meaning that has one. -/
theorem registerOperandAboveSevenFaults : Obligations.RegisterOperandAboveSevenFaults := by
  refine fun s r q imm hr => ⟨fun i hi => ?_, fun hq => ?_⟩
  · rcases hi with rfl | rfl | rfl | rfl | rfl | rfl | rfl <;> exact withReg_of_gt hr
  · exact (withReg_of_lt (Nat.lt_succ_of_le hq)).trans (withReg_of_gt hr)

/-- Settles O26: the stack check of a push comes right after the register check. -/
theorem pushAtZeroOverflows : Obligations.PushAtZeroOverflows := by
  intro s r hr hc h0
  have hfault (go : Byte → Answer) : withStackRoom s go = raise s (.stackOverflow 0) := by
    rw [withStackRoom_of_overflow hc h0, h0]
  exact ⟨(withReg_of_lt hr).trans (hfault _), (withReg_of_lt hr).trans (hfault _)⟩

/-- Settles O27: the stack check of a pop comes before its read. -/
theorem popAtTheInitialBoundaryUnderflows : Obligations.PopAtTheInitialBoundaryUnderflows := fun _ _ hr hc h =>
  ⟨(withReg_of_lt hr).trans (withStackTop_of_underflow hc h), (exec_ret_eq _).trans (withStackTop_of_underflow hc h)⟩

/-- Settles O29: the check of the return address comes between the stack check and the bound check. -/
theorem callAboveByteRangeFaults : Obligations.CallAboveByteRangeFaults := fun _ _ hr room h =>
  (withReg_of_lt hr).trans ((withStackRoom_of_room room).trans (withReturnByte_of_gt h))

/-- Settles O30: the bound check of the stack access is the last check. -/
theorem stackAccessBeyondMemoryFaults : Obligations.StackAccessBeyondMemoryFaults := by
  refine fun s r hr => ⟨fun room hm => ⟨?push, fun fits => ?call⟩, fun item hm => ⟨?pop, ?ret⟩⟩
  case push => exact (withReg_of_lt hr).trans ((withStackRoom_of_room room).trans (withinMemory_of_ge hm))
  case call =>
    exact (withReg_of_lt hr).trans
      ((withStackRoom_of_room room).trans ((withReturnByte_of_le fits).trans (withinMemory_of_ge hm)))
  case pop => exact (withReg_of_lt hr).trans (withStackTop_of_outside item hm)
  case ret => exact (exec_ret_eq s).trans <| withStackTop_of_outside item hm

end Sys2Proof.Machine
end

section
/-! PROOFS. The instruction register and the ALU (10_state.md R27; 41_alu.md R101 to R103). -/

namespace Sys2Proof.Machine

/-- A completion carries any `ir` through. -/
theorem Completes.latchIr {i : Instr} {s t : State} (h : Completes i s t) (v : Byte) :
    Completes i (s.latchIr v) (t.latchIr v) := by
  cases h with
  | hlt => exact .hlt _
  | ldi _ j imm => exact .ldi (s.latchIr v) j imm
  | mul _ a b => exact .mul (s.latchIr v) a b
  | prn _ j => exact .prn (s.latchIr v) j
  | push _ j room inside => exact .push (s.latchIr v) j room inside
  | pop _ j item inside => exact .pop (s.latchIr v) j item inside
  | call _ j room fits inside => exact .call (s.latchIr v) j room fits inside
  | ret _ item inside => exact .ret (s.latchIr v) item inside
  | jmp _ j => exact .jmp (s.latchIr v) j

/-- Settles O38: the fault conditions of an instruction do not see `ir`, and a completion carries it through. -/
theorem instructionsIgnoreTheInstructionRegister : Obligations.InstructionsIgnoreTheInstructionRegister := by
  intro i s t v h
  cases hf : firstFault (faultConditions i s) with
  | some f =>
    cases h.symm.trans (exec_of_firstFault_eq_some hf)
    exact ⟨rfl, exec_of_firstFault_eq_some (s := s.latchIr v) hf⟩
  | none =>
    obtain ⟨u, hu, hc⟩ := exec_of_firstFault_eq_none hf
    cases h.symm.trans hu
    exact ⟨hc.ir_eq, (hc.latchIr v).exec_eq⟩

/-- Settles O46: MUL is the machine product, which is that of the signed values too, with the laws of a product. -/
theorem aluMulLaws : Obligations.AluMulLaws := by
  intro a b c v w hv hw
  simp only [aluApply_mul, Option.some.injEq] at hv hw ⊢
  subst hv hw
  have hsigned : a * b = BitVec.ofInt 8 (a.toInt * b.toInt) := by
    rw [BitVec.ofInt_mul, BitVec.ofInt_toInt, BitVec.ofInt_toInt]
  exact ⟨hsigned, BitVec.mul_comm b a, BitVec.mul_assoc a b c, BitVec.one_mul a, BitVec.zero_mul⟩

/-- Settles O47: only MUL has a value, and every instruction answers a next state. -/
theorem reservedAluTagsAreRefusedAndUnreachable : Obligations.ReservedAluTagsAreRefusedAndUnreachable := by
  refine ⟨fun tag a b go h => ?_, fun i s why h => ?_⟩
  · cases tag with
    | mul => exact absurd rfl h
    | _ => exact ⟨rfl, rfl⟩
  · obtain ⟨t, ht⟩ := exec_answers_next i s
    cases ht.symm.trans h

end Sys2Proof.Machine
end

section
/-! PROOFS. The invariant of the machine: every step keeps it, and reset meets it (10_state.md R24, R29;
20_memory.md R40; 60_exceptions.md R170 to R172). -/

namespace Sys2Proof.Machine

/-! ### The fault record is truthful -/

/-- The list's two entries for OutOfBounds are the bound checks of a push and of a pop. -/
theorem outOfBounds_mem_faultConditions {i : Instr} {s : State} {a : Nat} {k : AccessKind} :
    (true, .outOfBounds a k) ∈ faultConditions i s ↔
      (pushesByte i = true ∧ s.cfg.memSize ≤ (s.sp.toNat + 255) % 256 ∧ a = (s.sp.toNat + 255) % 256 ∧
        k = .dataWrite) ∨
      (popsByte i = true ∧ s.cfg.memSize ≤ s.sp.toNat ∧ a = s.sp.toNat ∧ k = .dataRead) := by
  simp [faultConditions, and_assoc]

/-- The list's entries for InvalidRegister are the register operands. -/
theorem invalidRegister_mem_faultConditions {i : Instr} {s : State} {r : Byte} {k : Position} :
    (true, .invalidRegister r k) ∈ faultConditions i s ↔ (r, k) ∈ registerOperands i ∧ 7 < r.toNat := by
  simp [faultConditions]

/-- The list's one entry for ReturnAddressUnrepresentable is the check of CALL. -/
theorem returnAddressUnrepresentable_mem_faultConditions {i : Instr} {s : State} {n : Nat} :
    (true, .returnAddressUnrepresentable n) ∈ faultConditions i s ↔
      isCall i = true ∧ 255 < s.pc + 2 ∧ n = s.pc + 2 := by
  simp [faultConditions, and_assoc]

/-- No instruction raises InvalidOpcode: the fetch does. -/
theorem invalidOpcode_not_mem_faultConditions {i : Instr} {s : State} {op : Byte} :
    (true, .invalidOpcode op) ∉ faultConditions i s := by
  simp [faultConditions]

/-- A condition of an instruction's list that holds is one the state confirms. -/
theorem State.confirms_of_mem_faultConditions {i : Instr} {s : State} {f : FaultInfo}
    (h : (true, f) ∈ faultConditions i s) : s.confirms f := by
  cases f with
  | invalidOpcode op => exact absurd h invalidOpcode_not_mem_faultConditions
  | outOfBounds a k =>
    obtain ⟨-, hle, rfl, -⟩ | ⟨-, hle, rfl, -⟩ := outOfBounds_mem_faultConditions.1 h
    · exact hle
    · exact hle
  | stackOverflow v =>
    obtain ⟨-, hc, h0, rfl⟩ := stackOverflow_mem_faultConditions.1 h
    exact ⟨hc, rfl, h0⟩
  | stackUnderflow v =>
    obtain ⟨-, hc, hle, rfl⟩ := stackUnderflow_mem_faultConditions.1 h
    exact ⟨hc, rfl, hle⟩
  | invalidRegister r k => exact (invalidRegister_mem_faultConditions.1 h).2
  | returnAddressUnrepresentable n =>
    obtain ⟨-, hgt, rfl⟩ := returnAddressUnrepresentable_mem_faultConditions.1 h
    exact ⟨rfl, hgt⟩

/-- The fault of a cycle is one its state confirms once the opcode is latched. -/
theorem State.confirms_of_cycleFault {s : State} {f : FaultInfo} (h : s.cycleFault = some f) :
    (s.latchIr (s.mem.read s.pc)).confirms f := by
  unfold State.cycleFault at h
  split at h
  · cases h; assumption
  split at h
  · cases h; exact ⟨rfl, ‹_›⟩
  split at h
  · rename_i hm; cases h; exact hm.2
  split at h
  · rename_i hm; cases h; exact hm.2
  split at h
  · rename_i i _ _
    exact confirms_of_mem_faultConditions (s := s.latchIr _) (mem_of_firstFault_eq_some (cs := faultConditions i s) h)
  · cases h

/-! ### The program counter -/

theorem length_bytesFrom (m : Memory) (size a n : Nat) : (bytesFrom m size a n).length = min n (size - a) := by
  induction n generalizing a with
  | zero => simp [bytesFrom]
  | succ n ih =>
    rw [bytesFrom_succ]
    split
    · rw [List.length_cons, ih]; omega
    · rw [List.length_nil]; omega

/-- An instruction that decodes at `pc` lies inside memory. -/
theorem pc_add_length_le_of_decode {s : State} {i : Instr} {rest : List Byte}
    (hd : decode s.cfg s.window = .ok (i, rest)) : s.pc + i.length ≤ s.cfg.memSize := by
  obtain ⟨hbytes, -⟩ := decode_eq_ok hd
  have hlen : min maxLength (s.cfg.memSize - s.pc) = i.length + rest.length := by
    rw [← length_encode s.cfg.opc i, ← List.length_append, ← hbytes]
    exact (length_bytesFrom _ _ _ _).symm
  have hpos : 0 < i.length := Nat.lt_add_right _ Nat.one_pos
  omega

/-! ### Every step -/

/-- A fault raised before or after the opcode is latched keeps the invariant when the state then confirms it. -/
theorem State.Inv.raised {s : State} {f : FaultInfo} (h : s.Inv) (hf : s.confirms f) : (s.raised f).Inv where
  legal := h.legal
  canonical := h.canonical
  inside := h.inside
  pcBound := h.pcBound
  truthful := by rintro g ⟨⟩; exact ⟨rfl, hf⟩

/-- A RUNNING engine has no record, so latching the opcode keeps the invariant. -/
theorem State.Inv.latchIr {s : State} (h : s.Inv) (hr : s.status = .running) (v : Byte) : (s.latchIr v).Inv where
  legal := h.legal
  canonical := h.canonical
  inside := h.inside
  pcBound := h.pcBound
  truthful f hf := by cases hr.symm.trans hf

/-- The completion of an instruction inside memory keeps the invariant. -/
theorem Completes.inv {i : Instr} {s t : State} (h : Completes i s t) (hs : s.Inv) (hr : s.status = .running)
    (hlen : s.pc + i.length ≤ s.cfg.memSize) : t.Inv where
  legal := by rw [h.cfg_eq]; exact hs.legal
  canonical := by
    obtain ⟨-, -, hm⟩ | ⟨-, -, v, -, hm⟩ := h.mem_cases <;> rw [hm]
    · exact hs.canonical
    · exact Memory.wf_write _ _ _ hs.canonical
  inside := by
    rw [h.cfg_eq]
    obtain ⟨-, -, hm⟩ | ⟨-, hin, v, -, hm⟩ := h.mem_cases <;> rw [hm]
    · exact hs.inside
    · exact Memory.within_write _ _ hs.inside hin
  pcBound := by
    rw [h.cfg_eq]
    obtain hpc | hpc | ⟨b, hpc⟩ := h.pc_cases <;> rw [hpc]
    · exact hs.pcBound
    · omega
    · have := b.isLt; omega
  truthful f hf := absurd hf (h.status_ne_fault hr)

/-- Settles O34: a step stays in HALTED, or raises a fault its state confirms, or completes an instruction that lies
inside memory. -/
theorem everyStepKeepsTheInvariant : Obligations.EveryStepKeepsTheInvariant := by
  intro s t hs h
  obtain ⟨-, rfl⟩ | ⟨hr, -⟩ := step_eq_next h
  · exact hs
  have hlatched := hs.latchIr hr (s.mem.read s.pc)
  obtain ⟨f, hf, hout, e⟩ | ⟨f, hf, -, e⟩ | ⟨-, i, rest, u, hd, e, hc⟩ := step_running_cases hs.legal hr <;>
    cases h.symm.trans e
  · cases hf.symm.trans (State.cycleFault_of_outside hout)
    exact hs.raised hout
  · exact hlatched.raised (State.confirms_of_cycleFault hf)
  · exact hc.inv hlatched hr (pc_add_length_le_of_decode hd)

/-- A construction over a legal configuration and a canonical memory meets the invariant. -/
theorem State.inv_construct {cfg : Config} {mem : Memory} (hw : cfg.wf = true) (hm : mem.wf = true)
    (hin : mem.within cfg.memSize = true) : (State.construct cfg mem).Inv where
  legal := hw
  canonical := hm
  inside := hin
  pcBound := Nat.zero_le _
  truthful := nofun

/-- Settles O35: `State.reset` is the construction under the defaults over the empty memory. -/
theorem resetMeetsTheInvariant : Obligations.ResetMeetsTheInvariant :=
  ⟨State.inv_construct (by decide) rfl rfl, fun _ _ => State.inv_construct⟩

end Sys2Proof.Machine
end

section
/-! SUPPORT. The memory requests of a cycle (20_memory.md R43; 40_fetch_decode_execute.md R91): which they are, and that
a cycle is determined by the cells they read. -/

namespace Sys2Proof.Machine

/-! ### Which requests a cycle issues -/

theorem takeWhile_range_lt (n d : Nat) :
    (List.range n).takeWhile (fun k => decide (k < d)) = List.range (min n d) := by
  induction n with
  | zero => simp
  | succ n ih =>
    rw [List.range_succ, List.takeWhile_append, ih, List.length_range, List.length_range]
    by_cases h : n < d
    · rw [if_pos (by omega), List.takeWhile_cons_of_pos (by simpa using h), List.takeWhile_nil,
        show min (n + 1) d = n + 1 by omega, List.range_succ]
    · by_cases hd : n = d
      · subst hd
        simp
      · rw [if_neg (by omega)]
        congr 1
        omega

/-- The operand reads are those of the operand bytes that lie inside memory. -/
theorem mem_operandReads_iff {s : State} {n : Nat} {q : Request} :
    q ∈ operandReads s n ↔ ∃ k < n, s.pc + 1 + k < s.cfg.memSize ∧ q = .read (s.pc + 1 + k) .operand := by
  have hinside : ((fun a => decide (a < s.cfg.memSize)) ∘ fun k => s.pc + 1 + k) =
      fun k => decide (k < s.cfg.memSize - (s.pc + 1)) := by
    funext k
    simp only [Function.comp, decide_eq_decide]
    omega
  rw [operandReads, List.takeWhile_map, hinside, takeWhile_range_lt]
  simp only [List.map_map, List.mem_map, List.mem_range, Function.comp, lt_min_iff]
  constructor
  · rintro ⟨k, ⟨hn, hm⟩, rfl⟩
    exact ⟨k, hn, by omega, rfl⟩
  · rintro ⟨k, hn, hm, rfl⟩
    exact ⟨k, ⟨hn, by omega⟩, rfl⟩

/-- The fetch is requested inside memory, and past a mapped opcode its operands that lie there. -/
theorem mem_fetchRequests_iff {s : State} {q : Request} :
    q ∈ fetchRequests s ↔ s.pc < s.cfg.memSize ∧
      (q = .read s.pc .fetch ∨ ∃ m, lookup s.cfg (s.mem.read s.pc) = some m ∧
        ∃ k < operandCount m, s.pc + 1 + k < s.cfg.memSize ∧ q = .read (s.pc + 1 + k) .operand) := by
  unfold fetchRequests
  split
  · rename_i h
    cases hl : lookup s.cfg (s.mem.read s.pc) with
    | none => simp [h]
    | some m => simp [h, mem_operandReads_iff]
  · rename_i h
    simp [h]

theorem write_not_mem_fetchRequests {s : State} {a : Nat} {v : Byte} : Request.write a v ∉ fetchRequests s := by
  rw [mem_fetchRequests_iff]
  rintro ⟨-, h | ⟨m, -, k, -, -, h⟩⟩ <;> cases h

/-- The execution of a RUNNING engine ends without a fault exactly when the instruction completes. -/
theorem completed_exec_iff {i : Instr} {s : State} (hr : s.status = .running) :
    completed (exec i s) = true ↔ ∃ t, Completes i s t := by
  constructor
  · intro h
    obtain ⟨t, ht⟩ := exec_answers_next i s
    obtain ⟨f, rfl⟩ | hc := exec_eq_next ht
    · rw [ht] at h
      cases h
    · exact ⟨t, hc⟩
  · rintro ⟨t, hc⟩
    rw [hc.exec_eq, completed, hc.status_eq, hr]
    by_cases hi : i = .hlt <;> simp [hi]

/-- The requests of a cycle are those of its fetch, and the data access of its instruction when that completes. -/
theorem mem_requests_iff {s : State} {q : Request} :
    q ∈ s.requests ↔ s.status = .running ∧
      (q ∈ fetchRequests s ∨ ∃ i rest t, decode s.cfg s.window = .ok (i, rest) ∧
        Completes i (s.latchIr (s.mem.read s.pc)) t ∧ q ∈ dataAccess i (s.latchIr (s.mem.read s.pc))) := by
  cases hs : s.status with
  | halted c => simp [State.requests, hs]
  | running =>
    rw [State.requests_running hs, List.mem_append, and_iff_right rfl]
    refine or_congr_right ?_
    rcases fetchDecode_cases s with ⟨i, rest, hd, e⟩ | ⟨hd, e⟩ | ⟨op, hd, e⟩ | ⟨k, hd, e⟩
    · have hlatched : (s.latchIr (s.mem.read s.pc)).status = .running := hs
      rw [e]
      simp only [hd, Except.ok.injEq, Prod.mk.injEq]
      by_cases hc : completed (exec i (s.latchIr (s.mem.read s.pc))) = true
      · obtain ⟨t, ht⟩ := (completed_exec_iff hlatched).1 hc
        rw [if_pos hc]
        exact ⟨fun h => ⟨i, rest, t, ⟨rfl, rfl⟩, ht, h⟩, by rintro ⟨_, _, _, ⟨rfl, rfl⟩, -, h⟩; exact h⟩
      · rw [if_neg hc]
        refine ⟨nofun, ?_⟩
        rintro ⟨_, _, t, ⟨rfl, rfl⟩, ht, -⟩
        exact absurd ((completed_exec_iff hlatched).2 ⟨t, ht⟩) hc
    · rw [e, hd]; simp
    · rw [e, hd]; simp
    · rw [e, hd]; simp

/-- The data access of an instruction that completes is for an address inside memory. -/
theorem Completes.address_lt {i : Instr} {s t : State} {q : Request} (h : Completes i s t)
    (hq : q ∈ dataAccess i s) : q.address < s.cfg.memSize := by
  cases h with
  | push _ j room inside =>
    rw [dataAccess, regIndex_regByte, List.mem_singleton] at hq
    exact hq ▸ inside
  | pop _ j item inside => exact List.mem_singleton.1 hq ▸ inside
  | call _ j room fits inside => exact List.mem_singleton.1 hq ▸ inside
  | ret _ item inside => exact List.mem_singleton.1 hq ▸ inside
  | hlt | ldi | mul | prn | jmp => cases hq

/-- A write request of a cycle that answers is the data access of the instruction that completed in it. -/
theorem write_mem_requests {s t : State} {a : Nat} {v : Byte} (h : step s = .next t)
    (hq : Request.write a v ∈ s.requests) :
    ∃ i rest, decode s.cfg s.window = .ok (i, rest) ∧ Completes i (s.latchIr (s.mem.read s.pc)) t ∧
      Request.write a v ∈ dataAccess i (s.latchIr (s.mem.read s.pc)) := by
  obtain ⟨hr, hq | ⟨i, rest, u, hd, hc, hq⟩⟩ := mem_requests_iff.1 hq
  · exact absurd hq write_not_mem_fetchRequests
  · cases h.symm.trans ((step_of_decode (wf_of_step_eq_next h) hr hd).trans hc.exec_eq)
    exact ⟨i, rest, hd, hc, hq⟩

/-- What a step does to memory: nothing, and it requests no write; or its one write request. -/
theorem step_mem_cases {s t : State} (h : step s = .next t) :
    ((∀ a v, Request.write a v ∉ s.requests) ∧ t.mem = s.mem) ∨
      ∃ a v, (∀ b w, Request.write b w ∈ s.requests ↔ b = a ∧ w = v) ∧ t.mem = s.mem.write a v := by
  by_cases hex : s.status = .running ∧ ∃ i rest, decode s.cfg s.window = .ok (i, rest) ∧
      Completes i (s.latchIr (s.mem.read s.pc)) t
  · obtain ⟨hr, i, rest, hd, hc⟩ := hex
    have hsame (b w) : Request.write b w ∈ s.requests ↔
        Request.write b w ∈ dataAccess i (s.latchIr (s.mem.read s.pc)) := by
      refine ⟨fun hq => ?_, fun hq => mem_requests_iff.2 ⟨hr, .inr ⟨i, rest, t, hd, hc, hq⟩⟩⟩
      obtain ⟨i', rest', hd', -, hq'⟩ := write_mem_requests h hq
      cases hd.symm.trans hd'
      exact hq'
    obtain ⟨-, hno, hm⟩ | ⟨-, -, v, hone, hm⟩ := hc.mem_cases
    · exact .inl ⟨fun a v hq => hno a v ((hsame a v).1 hq), hm⟩
    · exact .inr ⟨_, v, fun b w => by rw [hsame, hone]; simp, hm⟩
  · refine .inl ⟨fun a v hq => ?_, ?_⟩
    · obtain ⟨i, rest, hd, hc, -⟩ := write_mem_requests h hq
      exact hex ⟨(mem_requests_iff.1 hq).1, i, rest, hd, hc⟩
    · obtain ⟨-, rfl⟩ | ⟨hr, ⟨f, rfl⟩ | ⟨f, rfl⟩ | ⟨i, rest, hd, hc⟩⟩ := step_eq_next h
      · rfl
      · rfl
      · rfl
      · exact absurd ⟨hr, i, rest, hd, hc⟩ hex

/-! ### The same cycle over another memory -/

/-- The state over another memory. -/
def State.withMem (s : State) (m : Memory) : State := { s with mem := m }

/-- What fetch and decode hand on, over another memory. -/
def Fetched.withMem (m : Memory) : Fetched → Fetched
  | .execute i s => .execute i (s.withMem m)
  | .stop s => .stop (s.withMem m)

/-- A completion over another memory that agrees on the reads of the instruction's data access. -/
theorem Completes.withMem {i : Instr} {s t : State} {m : Memory} (h : Completes i s t)
    (hreads : ∀ a k, Request.read a k ∈ dataAccess i s → m.read a = s.mem.read a) :
    ∃ m', Completes i (s.withMem m) (t.withMem m') := by
  cases h with
  | hlt => exact ⟨m, .hlt _⟩
  | ldi _ j imm => exact ⟨m, .ldi (s.withMem m) j imm⟩
  | mul _ a b => exact ⟨m, .mul (s.withMem m) a b⟩
  | prn _ j => exact ⟨m, .prn (s.withMem m) j⟩
  | jmp _ j => exact ⟨m, .jmp (s.withMem m) j⟩
  | push _ j room inside => exact ⟨_, .push (s.withMem m) j room inside⟩
  | call _ j room fits inside => exact ⟨_, .call (s.withMem m) j room fits inside⟩
  | pop _ j item inside =>
    rw [← hreads _ .dataRead List.mem_cons_self]
    exact ⟨m, .pop (s.withMem m) j item inside⟩
  | ret _ item inside =>
    rw [← hreads _ .dataRead List.mem_cons_self]
    exact ⟨m, .ret (s.withMem m) item inside⟩

/-- The instruction decoded depends on the operand bytes that it has and that are there, and on no others. -/
theorem decodeOperands_take_congr {m : Mnemonic} {a b a' b' : Byte} {n : Nat}
    (ha : 0 < operandCount m → 0 < n → a' = a) (hb : 1 < operandCount m → 1 < n → b' = b) :
    (decodeOperands m ([a', b'].take n)).map Prod.fst = (decodeOperands m ([a, b].take n)).map Prod.fst := by
  match n with
  | 0 => rfl
  | 1 =>
    cases m with
    | hlt | ret => rfl
    | _ => rw [ha (by decide) Nat.one_pos]; rfl
  | n + 2 =>
    cases m with
    | hlt | ret => rfl
    | ldi | mul => rw [ha (by decide) (Nat.succ_pos _), hb (by decide) (by omega)]
    | _ => rw [ha (by decide) (Nat.succ_pos _)]; rfl

theorem map_fst_eq_error_iff {x : Except DecodeError (Instr × List Byte)} {e : DecodeError} :
    x.map Prod.fst = .error e ↔ x = .error e := by
  cases x <;> simp [Except.map]

theorem map_fst_eq_ok_iff {x : Except DecodeError (Instr × List Byte)} {i : Instr} :
    x.map Prod.fst = .ok i ↔ ∃ rest, x = .ok (i, rest) := by
  rcases x with e | ⟨j, rest⟩ <;> simp [Except.map]

section
variable {s : State} {m : Memory} (hreads : ∀ a k, Request.read a k ∈ fetchRequests s → m.read a = s.mem.read a)
include hreads

/-- The decoder reads no cell beyond the requests of the fetch. -/
theorem decode_window_withMem :
    (decode s.cfg (s.withMem m).window).map Prod.fst = (decode s.cfg s.window).map Prod.fst := by
  by_cases h : s.pc < s.cfg.memSize
  case neg =>
    have hout := Nat.not_lt.1 h
    exact congrArg _ ((decode_window_of_outside (s := s.withMem m) hout).trans (decode_window_of_outside hout).symm)
  have hpc : m.read s.pc = s.mem.read s.pc := hreads _ .fetch (mem_fetchRequests_iff.2 ⟨h, .inl rfl⟩)
  cases hl : lookup s.cfg (s.mem.read s.pc) with
  | none =>
    have hd := decode_window_of_lookup_eq_none (s := s.withMem m) h ((congrArg _ hpc).trans hl)
    rw [decode_window_of_lookup_eq_none h hl, ← hpc]
    exact congrArg _ hd
  | some mn =>
    have hd := decode_window_of_lookup_eq_some (s := s.withMem m) h ((congrArg _ hpc).trans hl)
    have hoperand (k : Nat) (hk : k < operandCount mn) (hin : k < s.cfg.memSize - (s.pc + 1)) :
        m.read (s.pc + 1 + k) = s.mem.read (s.pc + 1 + k) :=
      hreads _ .operand (mem_fetchRequests_iff.2 ⟨h, .inr ⟨mn, hl, k, hk, by omega, rfl⟩⟩)
    rw [decode_window_of_lookup_eq_some h hl]
    exact (congrArg _ hd).trans (decodeOperands_take_congr (hoperand 0) (hoperand 1))

/-- Fetch and decode, over another memory that agrees on the requests of the fetch. -/
theorem fetchDecode_withMem : fetchDecode (s.withMem m) = (fetchDecode s).withMem m := by
  have hd := decode_window_withMem hreads
  have hpc (h : decode s.cfg s.window ≠ .error .noOpcode) :
      (s.withMem m).mem.read (s.withMem m).pc = s.mem.read s.pc :=
    hreads _ .fetch (mem_fetchRequests_iff.2 ⟨Nat.not_le.1 fun hout => h (decode_window_of_outside hout), .inl rfl⟩)
  have hcfg : (s.withMem m).cfg = s.cfg := rfl
  unfold fetchDecode
  cases hs : decode s.cfg s.window with
  | error e =>
    rw [hs, map_fst_eq_error_iff.2 rfl, map_fst_eq_error_iff] at hd
    cases e with
    | noOpcode => rw [hcfg, hd]; rfl
    | invalidOpcode op => rw [hcfg, hd, hpc (by rw [hs]; nofun)]; rfl
    | missingOperand k => rw [hcfg, hd, hpc (by rw [hs]; nofun)]; rfl
  | ok r =>
    obtain ⟨i, rest⟩ := r
    rw [hs, map_fst_eq_ok_iff.2 ⟨rest, rfl⟩, map_fst_eq_ok_iff] at hd
    obtain ⟨rest', hd⟩ := hd
    rw [hcfg, hd, hpc (by rw [hs]; nofun)]
    rfl

/-- The fetch requests the same cells over such a memory. -/
theorem fetchRequests_withMem : fetchRequests (s.withMem m) = fetchRequests s := by
  by_cases h : s.pc < s.cfg.memSize
  · have hpc : (s.withMem m).mem.read s.pc = s.mem.read s.pc :=
      hreads _ .fetch (mem_fetchRequests_iff.2 ⟨h, .inl rfl⟩)
    unfold fetchRequests
    rw [show (s.withMem m).pc = s.pc from rfl, hpc]
    rfl
  · exact (if_neg h).trans (if_neg h).symm

end

/-- Execution over another memory that agrees on the reads of the data access, if the instruction makes it. -/
theorem exec_withMem {i : Instr} {s t : State} {m : Memory} (h : exec i s = .next t)
    (hreads : Completes i s t → ∀ a k, Request.read a k ∈ dataAccess i s → m.read a = s.mem.read a) :
    ∃ m', exec i (s.withMem m) = .next (t.withMem m') := by
  cases hf : firstFault (faultConditions i s) with
  | some f =>
    cases h.symm.trans (exec_of_firstFault_eq_some hf)
    exact ⟨m, exec_of_firstFault_eq_some (s := s.withMem m) hf⟩
  | none =>
    obtain ⟨u, hu, hc⟩ := exec_of_firstFault_eq_none hf
    cases h.symm.trans hu
    obtain ⟨m', hc'⟩ := hc.withMem (hreads hc)
    exact ⟨m', hc'.exec_eq⟩

theorem eq_latchIr_of_fetchDecode_eq_execute {s u : State} {i : Instr} (h : fetchDecode s = .execute i u) :
    u = s.latchIr (s.mem.read s.pc) := by
  rcases fetchDecode_cases s with ⟨j, rest, -, e⟩ | ⟨-, e⟩ | ⟨op, -, e⟩ | ⟨k, -, e⟩ <;> cases h.symm.trans e
  rfl

/-- A cycle over another memory that agrees on its read requests. -/
theorem step_withMem {s t : State} {m : Memory} (h : step s = .next t)
    (hreads : ∀ a k, Request.read a k ∈ s.requests → m.read a = s.mem.read a) :
    (s.withMem m).requests = s.requests ∧ ∃ m', step (s.withMem m) = .next (t.withMem m') := by
  rcases step_cases s with ⟨-, e⟩ | ⟨hw, ⟨c, hs⟩, e⟩ | ⟨hw, hr, -⟩
  · cases e.symm.trans h
  · cases e.symm.trans h
    refine ⟨?_, m, step_halted (c := c) hw hs⟩
    simp only [State.requests, hs, show (s.withMem m).status = .halted c from hs]
  · have hr' : (s.withMem m).status = .running := hr
    rw [State.requests_running hr] at hreads
    have hfetch := fun a k hq => hreads a k (List.mem_append_left _ hq)
    rw [step_running hw hr] at h
    rw [State.requests_running hr, State.requests_running hr', step_running (s := s.withMem m) hw hr',
      fetchDecode_withMem hfetch, fetchRequests_withMem hfetch]
    cases he : fetchDecode s with
    | stop u =>
      rw [he] at h
      cases h
      exact ⟨rfl, m, rfl⟩
    | execute i u =>
      have hu := eq_latchIr_of_fetchDecode_eq_execute he
      have hrun : u.status = .running := by rw [hu]; exact hr
      have hdata (hc : Completes i u t) (a : Nat) (k : AccessKind) (hq : Request.read a k ∈ dataAccess i u) :
          m.read a = u.mem.read a := by
        rw [hu]
        refine hreads a k (List.mem_append_right _ ?_)
        rw [he]
        exact (congrArg _ (if_pos ((completed_exec_iff hrun).2 ⟨t, hc⟩))).mpr hq
      rw [he] at h
      have hexec : exec i u = .next t := h
      obtain ⟨m', e⟩ := exec_withMem hexec hdata
      refine ⟨?_, m', e⟩
      simp only [Fetched.withMem, e, hexec]
      rfl

end Sys2Proof.Machine
end

section
/-! PROOFS. Memory and its requests (20_memory.md R41 to R53; 40_fetch_decode_execute.md R88, R91). -/

namespace Sys2Proof.Machine

/-- Settles O48: the fetch and its operands are requested after their bound check, and the data access is that of an
instruction whose checks passed. -/
theorem requestsStayInsideMemory : Obligations.RequestsStayInsideMemory := by
  intro s q hq
  obtain ⟨-, hq | ⟨i, rest, t, -, hc, hq⟩⟩ := mem_requests_iff.1 hq
  · obtain ⟨hpc, rfl | ⟨m, -, k, -, hin, rfl⟩⟩ := mem_fetchRequests_iff.1 hq
    · exact hpc
    · exact hin
  · exact hc.address_lt hq

/-- Settles O49: a step writes nothing and requests no write, or makes its one write request. -/
theorem memoryChangesOnlyByTheWriteRequest : Obligations.MemoryChangesOnlyByTheWriteRequest := by
  intro s t h a
  obtain ⟨hno, hm⟩ | ⟨b, w, hone, hm⟩ := step_mem_cases h
  · exact ⟨fun v hv => absurd hv (hno a v), fun _ => by rw [hm]⟩
  · refine ⟨fun v hv => ?_, fun hno => ?_⟩
    · obtain ⟨rfl, rfl⟩ := (hone a v).1 hv
      rw [hm, Memory.read_write_same]
    · have hne : a ≠ b := fun e => hno w ((hone a w).2 ⟨e, rfl⟩)
      rw [hm, Memory.read_write_ne _ _ hne]

/-- Settles O50: the same cycle runs over a memory that agrees on the read requests. -/
theorem cycleReadsOnlyWhatItRequests : Obligations.CycleReadsOnlyWhatItRequests := by
  intro s t m h hreads
  obtain ⟨hreq, m', e⟩ := step_withMem h hreads
  exact ⟨hreq, _, e, rfl, rfl, rfl, rfl, rfl, rfl⟩

/-- Settles O52: the request's address is inside memory, so the next fetch there latches the byte written. -/
theorem writesAreSeenByTheNextFetch : Obligations.WritesAreSeenByTheNextFetch := by
  intro s t u a v h hq hcfg hmem hr hpc
  have hw : u.cfg.wf = true := by rw [hcfg, step_cfg h]; exact wf_of_step_eq_next h
  have hin : u.pc < u.cfg.memSize := by
    rw [hpc, hcfg, step_cfg h]
    exact requestsStayInsideMemory s _ hq
  obtain ⟨w, hstep, hir⟩ := (fetchLatchesTheOpcodeOrFaults u hw hr).2 hin
  refine ⟨w, hstep, ?_⟩
  rw [hir, hpc, hmem]
  exact (memoryChangesOnlyByTheWriteRequest s t h a).1 v hq

/-- The step lemma of O51: from a state over another listing of the same contents, a step answers the same state over
another listing of the same contents. -/
theorem step_same_contents {s t u : State} (hu : s.withMem u.mem = u) (hread : ∀ a, s.mem.read a = u.mem.read a)
    (h : step s = .next t) :
    ∃ t', step u = .next t' ∧ t.withMem t'.mem = t' ∧ ∀ a, t.mem.read a = t'.mem.read a := by
  obtain ⟨hreq, m', hstep⟩ := step_withMem h fun a _ _ => (hread a).symm
  rw [hu] at hreq hstep
  refine ⟨_, hstep, rfl, fun a => ?_⟩
  obtain ⟨hwritten, hkept⟩ := memoryChangesOnlyByTheWriteRequest s t h a
  obtain ⟨hwritten', hkept'⟩ := memoryChangesOnlyByTheWriteRequest u _ hstep a
  rw [hreq] at hwritten' hkept'
  by_cases hw : ∃ v, Request.write a v ∈ s.requests
  · obtain ⟨v, hv⟩ := hw
    rw [hwritten v hv, hwritten' v hv]
  · have hno (v : Byte) : Request.write a v ∉ s.requests := fun hv => hw ⟨v, hv⟩
    rw [hkept hno, hkept' hno, hread]

theorem step_of_not_wf {s : State} (h : s.cfg.wf = false) : step s = .refused .illFormedConfiguration := by
  unfold step
  rw [h]
  rfl

/-- Settles O51, by induction on the number of steps: both states step to states that agree so too, or their one
configuration is illegal and refuses both. -/
theorem runsDependOnlyOnMemoryContents : Obligations.RunsDependOnlyOnMemoryContents := by
  intro n
  induction n with
  | zero => exact fun s u hu hread => .inl ⟨s, u, rfl, rfl, hu, hread⟩
  | succ n ih =>
    intro s u hu hread
    cases hw : s.cfg.wf with
    | true =>
      obtain ⟨t, ht⟩ := everyStepAnswersANextState s hw
      obtain ⟨t', ht', hagree, hread'⟩ := step_same_contents hu hread ht
      rw [core_run_next n ht, core_run_next n ht']
      exact ih t t' hagree hread'
    | false =>
      have hcfg : s.cfg = u.cfg := by rw [← hu]
      exact .inr ⟨core_run_refused n (step_of_not_wf hw), core_run_refused n (step_of_not_wf (by rw [← hcfg, hw]))⟩

end Sys2Proof.Machine
end

section
/-! PROOFS. The host's load (70_reset_and_hazards.md R202 to R204). -/

namespace Sys2Proof.Machine

/-- A load writes no cell below its first address. -/
theorem Memory.read_load_of_lt (bs : List Byte) (m : Memory) {a b : Nat} (h : b < a) :
    (m.load a bs).read b = m.read b := by
  induction bs generalizing m a with
  | nil => rfl
  | cons v bs ih => exact (ih _ (by omega)).trans (Memory.read_write_ne m v (by omega))

/-- A load writes no cell from its last address up. -/
theorem Memory.read_load_of_ge (bs : List Byte) (m : Memory) {a b : Nat} (h : a + bs.length ≤ b) :
    (m.load a bs).read b = m.read b := by
  induction bs generalizing m a with
  | nil => rfl
  | cons v bs ih =>
    rw [List.length_cons] at h
    exact (ih _ (by omega)).trans (Memory.read_write_ne m v (by omega))

/-- Byte `k` of a load stands `k` cells up. -/
theorem Memory.read_load_getElem (bs : List Byte) (m : Memory) (a k : Nat) (h : k < bs.length) :
    (m.load a bs).read (a + k) = bs[k] := by
  induction bs generalizing m a k with
  | nil => cases h
  | cons v bs ih =>
    cases k with
    | zero => exact (Memory.read_load_of_lt bs _ (Nat.lt_succ_self a)).trans (Memory.read_write_same m a v)
    | succ k =>
      have htail := ih (m.write a v) (a + 1) k (Nat.lt_of_succ_lt_succ h)
      rwa [Nat.add_right_comm] at htail

/-- Settles O53: a load that is accepted and fits writes the image from 0 up; otherwise it answers nothing. -/
theorem loadPlacesTheImageAtZero : Obligations.LoadPlacesTheImageAtZero := by
  refine fun s image => ⟨fun haccept hfits => ?_, fun hlong => State.hostLoad_eq_none.2 (.inr hlong),
    fun hr hne => State.hostLoad_eq_none.2 (.inl ?_)⟩
  · refine ⟨_, State.hostLoad_eq_some.2 ⟨(State.acceptsLoad_iff s).2 haccept, hfits, rfl⟩, fun k h => ?_,
      fun a ha => ?_, rfl⟩
    · simpa using Memory.read_load_getElem image s.mem 0 k h
    · exact Memory.read_load_of_ge image s.mem (by rwa [Nat.zero_add])
  · rw [Bool.eq_false_iff, Ne, State.acceptsLoad_iff, hr]
    rintro (⟨c, hc⟩ | he)
    · cases hc
    · exact hne he

end Sys2Proof.Machine
end

section
/-! SUPPORT. The assembler's text: decimal numbers, words and pieces read back (30_encoding.md R71). -/

namespace Sys2Proof.Machine

/-! ### Decimal numbers -/

theorem digitValue_digitChar : ∀ d < 10, digitValue (Nat.digitChar d) = some d := by decide

theorem parseDigits_append (acc : Nat) (xs ys : List Char) :
    parseDigits acc (xs ++ ys) = (parseDigits acc xs).bind (parseDigits · ys) := by
  induction xs generalizing acc with
  | nil => rfl
  | cons c cs ih =>
    rw [List.cons_append, parseDigits, parseDigits]
    cases digitValue c with
    | none => rfl
    | some d => exact ih _

/-- The decimal digits of a number read back to it. -/
theorem parseDigits_decimal (n : Nat) : parseDigits 0 (decimal n) = some n := by
  induction n using Nat.strongRecOn with
  | ind n ih =>
    rw [decimal, Nat.toDigits_eq_if (by decide)]
    split
    · rename_i h
      simp [parseDigits, digitValue_digitChar n h]
    · have hlast : n % 10 < 10 := Nat.mod_lt n (by decide)
      rw [parseDigits_append, ← decimal, ih (n / 10) (by omega)]
      simp [parseDigits, digitValue_digitChar _ hlast, Nat.div_add_mod]

/-- A decimal text is a digit and what follows it. -/
theorem decimal_eq_cons (n : Nat) : ∃ c cs, decimal n = c :: cs ∧ c.isDigit = true := by
  cases h : decimal n with
  | nil => exact absurd h Nat.toDigits_ne_nil
  | cons c cs =>
    have hc : c ∈ decimal n := by rw [h]; exact List.mem_cons_self
    exact ⟨c, cs, rfl, Nat.isDigit_of_mem_toDigits (by decide) (by decide) hc⟩

theorem parseNumber_decimal (n : Nat) : parseNumber (decimal n) = some n := by
  obtain ⟨c, cs, h, -⟩ := decimal_eq_cons n
  have hd := parseDigits_decimal n
  rw [h] at hd ⊢
  exact hd

theorem comma_not_mem_decimal (n : Nat) : ',' ∉ decimal n := fun h =>
  absurd (Nat.isDigit_of_mem_toDigits (by decide) (by decide) h) (by decide)

/-! ### Operands -/

theorem parseIndex_decimal (r : Byte) : parseIndex (decimal r.toNat) = if r.toNat < 8 then some r else none := by
  simp [parseIndex, parseNumber_decimal]

theorem parseImmediate_decimal (b : Byte) : parseImmediate (decimal b.toNat) = some b := by
  simp [parseImmediate, parseNumber_decimal, b.isLt]

/-- A text that begins with a digit is a bare index. -/
theorem parseRegister_of_digit (cfg : Config) {c : Char} {cs : List Char} (h : c.isDigit = true) :
    parseRegister cfg (c :: cs) = parseIndex (c :: cs) := by
  unfold parseRegister
  split
  · rename_i e; cases e; cases h
  · rename_i e; cases e; cases h
  · rfl

theorem parseRegister_decimal (cfg : Config) (r : Byte) :
    parseRegister cfg (decimal r.toNat) = if r.toNat < 8 then some r else none := by
  obtain ⟨c, cs, h, hc⟩ := decimal_eq_cons r.toNat
  rw [← parseIndex_decimal, h]
  exact parseRegister_of_digit cfg hc

theorem parseRegister_R_decimal (cfg : Config) (r : Byte) :
    parseRegister cfg ('R' :: decimal r.toNat) = if r.toNat < 8 then some r else none :=
  parseIndex_decimal r

theorem parseRegister_registerText (cfg : Config) {r : Byte} (h : namesRegister r = true) :
    parseRegister cfg (registerText r) = some r :=
  (parseRegister_R_decimal cfg r).trans (if_pos (of_decide_eq_true h))

theorem comma_not_mem_registerText (r : Byte) : ',' ∉ registerText r := by
  rw [registerText, List.mem_cons, not_or]
  exact ⟨by decide, comma_not_mem_decimal _⟩

/-! ### Lines -/

theorem mnemonicOf_mnemonicText (m : Mnemonic) : mnemonicOf (mnemonicText m) = some m := by
  cases m <;> decide

theorem takeWhile_mnemonicText (m : Mnemonic) (ops : List Char) :
    (mnemonicText m ++ ' ' :: ops).takeWhile (· ≠ ' ') = mnemonicText m := by
  cases m <;> rfl

theorem operandTexts_mnemonicText (m : Mnemonic) (ops : List Char) :
    operandTexts (mnemonicText m ++ ' ' :: ops) = splitAt ',' ops := by
  cases m <;> rfl

theorem splitAt_of_not_mem {sep : Char} {cs : List Char} (h : sep ∉ cs) : splitAt sep cs = [cs] := by
  induction cs with
  | nil => rfl
  | cons c cs ih =>
    obtain ⟨hne, hcs⟩ := not_or.1 (List.mem_cons.not.1 h)
    rw [splitAt, if_neg (Ne.symm hne), ih hcs]

/-- The first separator ends the first piece. -/
theorem splitAt_append {sep : Char} {cs : List Char} (h : sep ∉ cs) (more : List Char) :
    splitAt sep (cs ++ sep :: more) = cs :: splitAt sep more := by
  induction cs with
  | nil => simp [splitAt]
  | cons c cs ih =>
    obtain ⟨hne, hcs⟩ := not_or.1 (List.mem_cons.not.1 h)
    rw [List.cons_append, splitAt, if_neg (Ne.symm hne), ih hcs]

/-- The operand texts of a line with one operand. -/
theorem operandTexts_one (m : Mnemonic) {a : List Char} (h : ',' ∉ a) :
    operandTexts (mnemonicText m ++ ' ' :: a) = [a] := by
  rw [operandTexts_mnemonicText, splitAt_of_not_mem h]

/-- The operand texts of a line with two operands. -/
theorem operandTexts_two (m : Mnemonic) {a b : List Char} (ha : ',' ∉ a) (hb : ',' ∉ b) :
    operandTexts (mnemonicText m ++ ' ' :: (a ++ ',' :: b)) = [a, b] := by
  rw [operandTexts_mnemonicText, splitAt_append ha, splitAt_of_not_mem hb]

end Sys2Proof.Machine
end

section
/-! PROOFS. The assembler (30_encoding.md R71, R72). -/

namespace Sys2Proof.Machine

/-- Settles O54: the mnemonic's text ends at the first space and each operand's at the next comma, and each is read back
by its own parser. -/
theorem assemblerTextParsesBack : Obligations.AssemblerTextParsesBack := by
  intro cfg i hi
  cases i with
  | hlt | ret => rfl
  | ldi r imm =>
    simp only [parseInstr, instrText, Instr.mnemonic, List.cons_append, takeWhile_mnemonicText,
      mnemonicOf_mnemonicText, operandTexts_two _ (comma_not_mem_registerText r) (comma_not_mem_decimal _),
      parseRegister_registerText cfg hi, parseImmediate_decimal]
  | mul rA rB =>
    obtain ⟨hA, hB⟩ : namesRegister rA = true ∧ namesRegister rB = true := by simpa [Instr.wellFormed] using hi
    simp only [parseInstr, instrText, Instr.mnemonic, List.cons_append, takeWhile_mnemonicText,
      mnemonicOf_mnemonicText, operandTexts_two _ (comma_not_mem_registerText rA) (comma_not_mem_registerText rB),
      parseRegister_registerText cfg hA, parseRegister_registerText cfg hB]
  | prn r | push r | pop r | call r | jmp r =>
    simp only [parseInstr, parseOne, instrText, Instr.mnemonic, takeWhile_mnemonicText, mnemonicOf_mnemonicText,
      operandTexts_one _ (comma_not_mem_registerText r), parseRegister_registerText cfg hi, Option.map_some]

/-- Settles O55: a text that begins with a digit, or with `R`, is read as a decimal index, which must be below 8. -/
theorem registerOperandForms : Obligations.RegisterOperandForms := by
  refine fun cfg r => ⟨fun h => ?low, fun h => ?high, rfl⟩ <;>
    rw [parseRegister_decimal, parseRegister_R_decimal]
  case low =>
    rw [if_pos (Nat.lt_succ_of_le h)]
    exact ⟨rfl, rfl⟩
  case high =>
    rw [if_neg (Nat.not_lt.2 h)]
    exact ⟨rfl, rfl⟩

/-- Settles O56, by running the assembler on the listing. -/
theorem sourceListingAssembles : Obligations.SourceListingAssembles := by
  unfold Obligations.SourceListingAssembles
  decide

end Sys2Proof.Machine
end
